-- ==== Sys2Proof/Word.lean ====
section
/-!
DEFINITION. The value types of the unit (spec/00_scope.md R8, R9): a command word, a byte, a field
element and a register file of sixteen elements. All values are unsigned.
-/

namespace Sys2Proof

/-- A 16-bit command word (R8 `CMD_BITS`, R36). -/
abbrev Word := BitVec 16

/-- An 8-bit register or operand: `RES`, `STATUS`, `ECHR`, `BYTE`, a character code. -/
abbrev Byte := BitVec 8

/-- An element of GF(32), stored in 5 bits (R8 `FE_BITS`, R13, R24). -/
abbrev Fe := BitVec 5

/-- A register file of `LMAX` = 16 elements, `GEN` or `ACC` (R8, R21, R22). -/
abbrev ElemFile := Vector Fe 16

end Sys2Proof
end

