-- ==== Sys2Proof/Config.lean ====
section
/-!
DEFINITION. The implementation parameters of spec/00_scope.md R8 and the OPEN parameters of
spec/92_eei_decisions.md section 2. The values the unit takes for them stand in Machine/Tables.lean.
-/

namespace Sys2Proof

/-- The OPEN parameters that commands of the unit read (92_eei_decisions.md section 2, D29, D30). -/
structure Params where
  /-- `GEN_CODEX32`, read by GSEL with SEL = 0. -/
  genCodex32 : Vector Fe 13
  /-- `GEN_BECH32`, read by GSEL with SEL = 1. -/
  genBech32 : Vector Fe 6
  /-- `ALPHABET`, read by C2FE and FE2C: the code of each field value. -/
  alphabet : Vector Byte 32
  deriving DecidableEq, Repr

/-- `LMAX`, the capacity of the generator and accumulator files and the greatest custom length
(R8, D4: "not open"). -/
def Config.lmax : Nat := 16

/-- `CODEX32_TARGET` (D22, section 2): the residue a CALLER compares a codex32 stream with. The spec
gives it no default, so it is a free value: nothing can be proved about which vector it is. No
command of the unit reads it. UNVERIFIED, safe: log entry 6. -/
opaque Config.codex32Target : Vector Fe 13

end Sys2Proof
end

