-- ==== Sys2Proof/Syntax.lean ====
section
/-!
DEFINITION. The commands of the unit: one constructor of `Instr` per row of spec/opcode_table.json
(spec/30_encoding.md R37, R40), with the operands of R38 and R39.
-/

namespace Sys2Proof

/-- Operand A of formats R2 and R1 (R39), told apart by the `S` bit. -/
inductive Src where
  /-- `S` = 0: the immediate `A`. -/
  | imm (a : Fe)
  /-- `S` = 1: `RES[4:0]`. The word's `A` field is kept, and R39 says it is ignored. -/
  | res (ignored : Fe)
  deriving DecidableEq, Repr

/-- The nine formats of R37. -/
inductive Format where
  | n0 | n | r2 | r1 | b8 | g | l | w | rd
  deriving DecidableEq, Repr

/-- The commands of R40. -/
inductive Instr where
  /-- NOP (R83). -/
  | nop
  /-- SCLR (R84). -/
  | sclr
  /-- FADD opA, B (R48). -/
  | fadd (src : Src) (b : Fe)
  /-- FMUL opA, B (R52). -/
  | fmul (src : Src) (b : Fe)
  /-- FINV opA (R54). -/
  | finv (src : Src)
  /-- C2FE BYTE (R58). -/
  | c2fe (byte : Byte)
  /-- FE2C opA (R59). -/
  | fe2c (src : Src)
  /-- GSEL SEL (R64). Format G gives `SEL` two bits, of which only 0 and 1 are legal (R38, R42). -/
  | gsel (sel : BitVec 2)
  /-- GSET LEN (R65). -/
  | gset (len : BitVec 5)
  /-- GWR IDX, V (R66). -/
  | gwr (idx : BitVec 4) (v : Fe)
  /-- PCLR (R70). -/
  | pclr
  /-- PSTEP opA (R71). -/
  | pstep (src : Src)
  /-- HHI BYTE (R79). -/
  | hhi (byte : Byte)
  /-- HLO BYTE (R80). -/
  | hlo (byte : Byte)
  /-- PPAD (R72). -/
  | ppad
  /-- PRD IDX, and PRD.RAW IDX when `raw` is set (R73, R44). -/
  | prd (raw : Bool) (idx : BitVec 4)
  deriving DecidableEq, Repr

/-- Why a word is no command (R41, R42). The unit records ILLEGAL_CMD for each of the first three. -/
inductive DecodeError where
  /-- Opcode 0xF (R42). -/
  | reservedOpcode
  /-- A bit that the format marks 0 is 1 (R41). -/
  | reservedBits (fmt : Format)
  /-- GSEL with SEL = 2 or 3 (R42). -/
  | reservedSelector
  /-- A byte listing ends inside a word. Only the listing helpers answer it (R29): the command port
  takes whole words (R31). -/
  | truncatedListing
  deriving DecidableEq, Repr

/-- A row of spec/opcode_table.json: a word `w` is the row's when `w &&& mask = bits`. -/
structure OpcodeRow where
  mnemonic : String
  bits : Word
  mask : Word
  deriving DecidableEq, Repr

end Sys2Proof
end

