-- ==== Sys2Proof/WellFormed.lean ====
section
/-!
DEFINITION. Which terms of `Instr` are commands of the unit. The operand widths of R38 are in the
types, so one check is left: GSEL's selector (R38, R42).
-/

namespace Sys2Proof

/-- `SEL` of GSEL is 0 or 1 (R38, R42). Every other operand value is legal as an encoding: the LEN
values GSET refuses are refused when it executes (R65). -/
def Instr.wellFormed : Instr → Bool
  | .gsel sel => decide (sel.toNat < 2)
  | .nop => true
  | .sclr => true
  | .fadd _ _ => true
  | .fmul _ _ => true
  | .finv _ => true
  | .c2fe _ => true
  | .fe2c _ => true
  | .gset _ => true
  | .gwr _ _ => true
  | .pclr => true
  | .pstep _ => true
  | .hhi _ => true
  | .hlo _ => true
  | .ppad => true
  | .prd _ _ => true

end Sys2Proof
end

