-- ==== Sys2Proof/Decode.lean ====
section
/-!
DEFINITION. The decoder of spec/30_encoding.md R43, total on all 65536 words and refusing by name,
and after it the encoder, written from the formats of R37. Byte listings are R29's.
-/

namespace Sys2Proof

/-! ### Fields of a command word (R37) -/

/-- `OP = cmd[15:12]`. -/
def opField (w : Word) : BitVec 4 := w.extractLsb' 12 4
/-- `S = cmd[11]`. -/
def sField (w : Word) : Bool := w.getLsbD 11
/-- `A = cmd[9:5]` of format R2. -/
def aFieldR2 (w : Word) : Fe := w.extractLsb' 5 5
/-- The element field `cmd[4:0]`: `B` of R2, `A` of R1, `V` of W; also `LEN` of L. -/
def lowField (w : Word) : Fe := w.extractLsb' 0 5
/-- `BYTE = cmd[7:0]`. -/
def byteField (w : Word) : Byte := w.extractLsb' 0 8
/-- `SEL = cmd[1:0]`. -/
def selField (w : Word) : BitVec 2 := w.extractLsb' 0 2
/-- `IDX = cmd[8:5]` of format W. -/
def idxFieldW (w : Word) : BitVec 4 := w.extractLsb' 5 4
/-- `RAW = cmd[4]`. -/
def rawField (w : Word) : Bool := w.getLsbD 4
/-- `IDX = cmd[3:0]` of format RD. -/
def idxFieldRd (w : Word) : BitVec 4 := w.extractLsb' 0 4

/-- Operand A from the `S` bit and the `A` field (R39). -/
def srcOf (sBit : Bool) (a : Fe) : Src := if sBit then .res a else .imm a

/-! ### The decoder -/

/-- The reserved bits of each format (R41). -/
def reservedMask : Format → Word
  | .n0 => 0x0FFE#16
  | .n => 0x0FFF#16
  | .r2 => 0x0400#16
  | .r1 => 0x07E0#16
  | .b8 => 0x0F00#16
  | .g => 0x0FFC#16
  | .l => 0x0FE0#16
  | .w => 0x0E00#16
  | .rd => 0x0FE0#16

/-- The opcode map (R40, R43): the format an opcode selects and the command its fields give. -/
def opcodeMap (op : Nat) : Option (Format × (Word → Instr)) :=
  match op with
  | 0x0 => some (.n0, fun w => if w.getLsbD 0 then .sclr else .nop)
  | 0x1 => some (.r2, fun w => .fadd (srcOf (sField w) (aFieldR2 w)) (lowField w))
  | 0x2 => some (.r2, fun w => .fmul (srcOf (sField w) (aFieldR2 w)) (lowField w))
  | 0x3 => some (.r1, fun w => .finv (srcOf (sField w) (lowField w)))
  | 0x4 => some (.b8, fun w => .c2fe (byteField w))
  | 0x5 => some (.r1, fun w => .fe2c (srcOf (sField w) (lowField w)))
  | 0x6 => some (.g, fun w => .gsel (selField w))
  | 0x7 => some (.l, fun w => .gset (lowField w))
  | 0x8 => some (.w, fun w => .gwr (idxFieldW w) (lowField w))
  | 0x9 => some (.n, fun _ => .pclr)
  | 0xA => some (.r1, fun w => .pstep (srcOf (sField w) (lowField w)))
  | 0xB => some (.b8, fun w => .hhi (byteField w))
  | 0xC => some (.b8, fun w => .hlo (byteField w))
  | 0xD => some (.n, fun _ => .ppad)
  | 0xE => some (.rd, fun w => .prd (rawField w) (idxFieldRd w))
  | _ => none

/-- The decode procedure of R43. -/
def decode (w : Word) : Except DecodeError Instr :=
  match opcodeMap (opField w).toNat with
  | none => .error .reservedOpcode
  | some (fmt, build) =>
    if w &&& reservedMask fmt ≠ 0#16 then .error (.reservedBits fmt)
    else if opField w = 0x6#4 ∧ w.getLsbD 1 = true then .error .reservedSelector
    else .ok (build w)

/-! ### Byte listings (R29): most significant byte first -/

/-- The command words of a byte listing. -/
def wordsOfListing : List Byte → Except DecodeError (List Word)
  | [] => .ok []
  | [_] => .error .truncatedListing
  | hi :: lo :: rest =>
    match wordsOfListing rest with
    | .ok ws => .ok ((hi ++ lo) :: ws)
    | .error e => .error e

/-- The byte listing of command words. -/
def listingOfWords : List Word → List Byte
  | [] => []
  | w :: ws => w.extractLsb' 8 8 :: w.extractLsb' 0 8 :: listingOfWords ws

/-- The first command of a byte listing, and the bytes after it. -/
def decodeListing : List Byte → Except DecodeError (Instr × List Byte)
  | hi :: lo :: rest =>
    match decode (hi ++ lo) with
    | .ok c => .ok (c, rest)
    | .error e => .error e
  | _ => .error .truncatedListing

/-! ### The encoder -/

/-- The `S` bit of operand A. -/
def Src.sBit : Src → BitVec 1
  | .imm _ => 0#1
  | .res _ => 1#1

/-- The `A` field of operand A. -/
def Src.aField : Src → Fe
  | .imm a => a
  | .res a => a

/-- The word of a command, laid out by its format's row of R37. -/
def encode : Instr → Word
  | .nop => 0x0#4 ++ 0#11 ++ 0#1
  | .sclr => 0x0#4 ++ 0#11 ++ 1#1
  | .fadd src b => 0x1#4 ++ src.sBit ++ 0#1 ++ src.aField ++ b
  | .fmul src b => 0x2#4 ++ src.sBit ++ 0#1 ++ src.aField ++ b
  | .finv src => 0x3#4 ++ src.sBit ++ 0#6 ++ src.aField
  | .c2fe byte => 0x4#4 ++ 0#4 ++ byte
  | .fe2c src => 0x5#4 ++ src.sBit ++ 0#6 ++ src.aField
  | .gsel sel => 0x6#4 ++ 0#10 ++ sel
  | .gset len => 0x7#4 ++ 0#7 ++ len
  | .gwr idx v => 0x8#4 ++ 0#3 ++ idx ++ v
  | .pclr => 0x9#4 ++ 0#12
  | .pstep src => 0xA#4 ++ src.sBit ++ 0#6 ++ src.aField
  | .hhi byte => 0xB#4 ++ 0#4 ++ byte
  | .hlo byte => 0xC#4 ++ 0#4 ++ byte
  | .ppad => 0xD#4 ++ 0#12
  | .prd raw idx => 0xE#4 ++ 0#7 ++ BitVec.ofBool raw ++ idx

/-! ### The opcode table -/

/-- The row name of a command. -/
def Instr.mnemonic : Instr → String
  | .nop => "NOP"
  | .sclr => "SCLR"
  | .fadd _ _ => "FADD"
  | .fmul _ _ => "FMUL"
  | .finv _ => "FINV"
  | .c2fe _ => "C2FE"
  | .fe2c _ => "FE2C"
  | .gsel _ => "GSEL"
  | .gset _ => "GSET"
  | .gwr _ _ => "GWR"
  | .pclr => "PCLR"
  | .pstep _ => "PSTEP"
  | .hhi _ => "HHI"
  | .hlo _ => "HLO"
  | .ppad => "PPAD"
  | .prd _ _ => "PRD"

/-- spec/opcode_table.json, each row's `match` and `mask`. -/
def opcodeTable : List OpcodeRow :=
  [ ⟨"NOP", 0x0000, 0xFFFF⟩, ⟨"SCLR", 0x0001, 0xFFFF⟩, ⟨"FADD", 0x1000, 0xF400⟩,
    ⟨"FMUL", 0x2000, 0xF400⟩, ⟨"FINV", 0x3000, 0xF7E0⟩, ⟨"C2FE", 0x4000, 0xFF00⟩,
    ⟨"FE2C", 0x5000, 0xF7E0⟩, ⟨"GSEL", 0x6000, 0xFFFE⟩ ] ++
  [ ⟨"GSET", 0x7000, 0xFFE0⟩, ⟨"GWR", 0x8000, 0xFE00⟩, ⟨"PCLR", 0x9000, 0xFFFF⟩,
    ⟨"PSTEP", 0xA000, 0xF7E0⟩, ⟨"HHI", 0xB000, 0xFF00⟩, ⟨"HLO", 0xC000, 0xFF00⟩,
    ⟨"PPAD", 0xD000, 0xFFFF⟩, ⟨"PRD", 0xE000, 0xFFE0⟩ ]

/-- The table's rows that a word matches. -/
def matchingRows (w : Word) : List OpcodeRow :=
  opcodeTable.filter fun row => decide (w &&& row.mask = row.bits)

/-- The word a table row of `nbits` bits stands for: its bits, and 0 above them. -/
def tableWord (nbits w : Nat) : Word := BitVec.ofNat 16 (w % 2 ^ nbits)

/-- The host's question: the command the decoder reads from the word whose bits are `w`. Every row
has 16 bits, and the command port takes the word whole (R29, R31). -/
def decodeTableWord (nbits w : Nat) : Option Instr :=
  match decode (tableWord nbits w) with
  | .ok c => some c
  | .error _ => none

end Sys2Proof
end

