-- ==== Sys2Proof/Machine/State.lean ====
section
/-!
DEFINITION. The state of the unit (spec/10_state.md), the errors it records (spec/60_exceptions.md
R86), what the host can do to it (spec/70_reset_and_hazards.md R100), and the state after reset (R94).
-/

namespace Sys2Proof.Machine

/-- The output registers the host reads (R26). -/
inductive OutReg where
  | res | status | echr | glen | nlen
  deriving DecidableEq, Repr

/-- The host's interactions with the unit (R100). -/
inductive HostAction where
  /-- Issue a command word. -/
  | command (w : Word)
  /-- Read an output register. -/
  | read (r : OutReg)
  /-- Reset the unit. -/
  | reset
  deriving DecidableEq, Repr

/-- The errors a command can raise (R86), INVALID_CHAR with the byte it records. -/
inductive UnitError where
  | invalidChar (byte : Byte)
  | invZero
  | illegalCmd
  | badLen
  | noGen
  deriving DecidableEq, Repr

/-- Reasons for the machine to stop. There is none: R90 says the unit never traps, and R42 gives every
word in every state one defined outcome, so no meaning and no step raises a fault. Safe. -/
inductive Fault where
  deriving DecidableEq, Repr

/-- Reasons for the model to give an instruction no meaning. -/
inductive Refusal where
  /-- Raised only by an arm of `exec` whose instruction is not modelled yet; no arm is so now. Safe. -/
  | notModelled (mnemonic : String)
  deriving DecidableEq, Repr

/-- Everything the spec gives the unit (R26: no other state exists), and the host's actions still to
come. `NLEN` is computed, never stored (R23). -/
structure State where
  /-- `RES`, the result register (R15). -/
  res : Byte
  /-- `STATUS` (R16): ERR bit 0, CODE bits 3:1, STK bit 4, bits 7:5 reserved. -/
  status : Byte
  /-- `ECHR`, the offending-character register (R17). -/
  echr : Byte
  /-- `GLEN`, the generator length (R18). -/
  glen : BitVec 5
  /-- `GEN[0..15]`, the generator file (R21). -/
  gen : ElemFile
  /-- `ACC[0..15]`, the accumulator file (R22). -/
  acc : ElemFile
  /-- The host's actions still to come, the next one first (R14, R33, R100, R101). No register of the
  spec: the model's own form of the command port. DESIGN CHOICE, safe: log entry 1. -/
  port : List HostAction
  deriving DecidableEq, Repr

/-- What a step or a meaning answers. -/
abbrev StepResult := Host.Outcome State Fault Refusal

/-- The state after reset (R94: every register 0), with no action of the host pending. -/
def State.reset : State where
  res := 0
  status := 0
  echr := 0
  glen := 0
  gen := Vector.replicate 16 0#5
  acc := Vector.replicate 16 0#5
  port := []

end Sys2Proof.Machine
end

