-- ==== Sys2Proof/Machine/Flags.lean ====
section
/-!
DEFINITION. The fields of `STATUS` and what success, an error and SCLR make of them
(spec/10_state.md R16, spec/60_exceptions.md R86–R88, spec/45_control.md R84).
-/

namespace Sys2Proof.Machine

/-- `ERR`, bit 0. -/
def statusErr (w : Byte) : Bool := w.getLsbD 0
/-- `CODE`, bits 3:1. -/
def statusCode (w : Byte) : BitVec 3 := w.extractLsb' 1 3
/-- `STK`, bit 4. -/
def statusStk (w : Byte) : Bool := w.getLsbD 4
/-- The reserved bits 7:5. -/
def statusReserved (w : Byte) : BitVec 3 := w.extractLsb' 5 3

/-- The status word with the given fields. -/
def packStatus (reserved : BitVec 3) (stk : Bool) (code : BitVec 3) (err : Bool) : Byte :=
  reserved ++ BitVec.ofBool stk ++ code ++ BitVec.ofBool err

/-- The code of an error (R86). -/
def errorCode : UnitError → BitVec 3
  | .invalidChar _ => 1#3
  | .invZero => 2#3
  | .illegalCmd => 3#3
  | .badLen => 4#3
  | .noGen => 5#3

/-- `complete()`: ERR <- 0, CODE <- 0, STK kept (R88); the reserved bits are never written (R16). -/
def statusCompleted (w : Byte) : Byte := packStatus (statusReserved w) (statusStk w) 0#3 false

/-- `raise Error`: ERR <- 1, CODE <- code, STK <- 1 (R87). -/
def statusRaised (code : BitVec 3) (w : Byte) : Byte := packStatus (statusReserved w) true code true

/-- `STK <- 0` (R84). -/
def statusUnstuck (w : Byte) : Byte :=
  packStatus (statusReserved w) false (statusCode w) (statusErr w)

/-- What a read of `STATUS` gives: the reserved bits read as 0 (R16). DEDUCED, safe: log entry 8. -/
def statusRead (w : Byte) : Byte := packStatus 0#3 (statusStk w) (statusCode w) (statusErr w)

end Sys2Proof.Machine
end

