-- ==== Sys2Proof/Machine/Ops.lean ====
section
/-!
DEFINITION. The named operations over the registers and register files: writing `RES`, reading and
clearing a file, recording an error (the unit's only exception effect, spec/60_exceptions.md R87),
completing (R88), the host's reads (R26) and its reset (R94). The unit has no memory (R27).
-/

namespace Sys2Proof.Machine

/-- All sixteen elements 0. -/
def zeroFile : ElemFile := Vector.replicate 16 0#5

/-- Element `k` of a register file; 0 past its end, which no index of a command reaches (R27). DESIGN CHOICE,
safe: log entry 11. -/
def fileGet (f : ElemFile) (k : Nat) : Fe := if h : k < 16 then f[k] else 0#5

/-- A register file with element `k` written. -/
def fileSet (f : ElemFile) (k : BitVec 4) (v : Fe) : ElemFile := f.set k.toNat v k.isLt

/-- A register file that begins with the given elements and is 0 after them (R64). -/
def fileOfList (g : List Fe) : ElemFile := Vector.ofFn fun k => g.getD k.val 0#5

/-- `RES <- zext_8(v)` (R15). -/
def State.setResElem (s : State) (v : Fe) : State := { s with res := v.setWidth 8 }

/-- `RES <- code`, all eight bits (R15, R59). -/
def State.setResByte (s : State) (v : Byte) : State := { s with res := v }

/-- `RES[4:0]` (R39). -/
def State.resElem (s : State) : Fe := s.res.setWidth 5

/-- `ACC[0..15] <- 0` (R22). -/
def State.clearAcc (s : State) : State := { s with acc := zeroFile }

/-- Load a generator and start a new reduction: `GLEN`, all of `GEN`, and `ACC` cleared (R64, R65). -/
def State.loadGenerator (s : State) (len : BitVec 5) (g : List Fe) : State :=
  { s with glen := len, gen := fileOfList g, acc := zeroFile }

/-- `complete()` (R88). -/
def State.complete (s : State) : State := { s with status := statusCompleted s.status }

/-- `ECHR` after an error: only INVALID_CHAR writes it (R87, R17). -/
def echrAfter (e : UnitError) (old : Byte) : Byte :=
  match e with
  | .invalidChar byte => byte
  | .invZero => old
  | .illegalCmd => old
  | .badLen => old
  | .noGen => old

/-- `raise Error(code [, byte])` (R87): nothing but `STATUS` and `ECHR` changes. -/
def State.raiseError (s : State) (e : UnitError) : State :=
  { s with status := statusRaised (errorCode e) s.status, echr := echrAfter e s.echr }

/-- A command ends in success with its writes made. -/
def finish (s : State) : StepResult := .next s.complete

/-- A command ends in an error; the unit goes on (R90). -/
def fail (e : UnitError) (s : State) : StepResult := .next (s.raiseError e)

/-! ### The derived length `NLEN` -/

/-- How many elements are 0 before the first nonzero one: `z` of R23. -/
def leadingZeros : List Fe → Nat
  | [] => 0
  | v :: rest => if v = 0#5 then leadingZeros rest + 1 else 0

/-- `NLEN` = GLEN - z, z counted over `ACC[0..GLEN-1]` (R23). -/
def State.nlen (s : State) : Nat := s.glen.toNat - leadingZeros (s.acc.toList.take s.glen.toNat)

/-! ### The host -/

/-- What the host reads from an output register, zero-extended to 8 bits; a function of the state,
with no side effect (R26). -/
def State.hostRead (s : State) (r : OutReg) : Byte :=
  match r with
  | .res => s.res
  | .status => statusRead s.status
  | .echr => s.echr
  | .glen => s.glen.setWidth 8
  | .nlen => BitVec.ofNat 8 s.nlen

/-- The unit after a reset by the host: the state of R94. The host's later actions are still to come: DESIGN
CHOICE, log entry 3. -/
def State.resetUnit (s : State) : State := { State.reset with port := s.port }

/-- The host's next action, and the state once the unit has taken it (R14, R33). -/
def State.takeAction (s : State) : Option (HostAction × State) :=
  match s.port with
  | [] => none
  | a :: rest => some (a, { s with port := rest })

/-- The host presents one more action, before those still to come. -/
def State.present (s : State) (a : HostAction) : State := { s with port := a :: s.port }

end Sys2Proof.Machine
end

