-- ==== Sys2Proof/Machine/Operands.lean ====
section
/-!
DEFINITION. The operand forms (spec/30_encoding.md R38, R39; spec/44_hrp.md R79, R80). Every operand is
unsigned; none is sign-extended, scaled or shifted.
-/

namespace Sys2Proof.Machine

/-- `opA` of R39: the immediate, or `RES[4:0]` as it stands when `S` = 1. -/
def operandA (src : Src) (s : State) : Fe :=
  match src with
  | .imm a => a
  | .res _ => s.resElem

/-- The element HHI feeds: `zext_5(BYTE[7:5])`, BYTE >> 5 (R79). -/
def hrpHigh (byte : Byte) : Fe := (byte.extractLsb' 5 3).setWidth 5

/-- The element HLO feeds: `BYTE[4:0]`, BYTE & 0x1F (R80). -/
def hrpLow (byte : Byte) : Fe := byte.extractLsb' 0 5

end Sys2Proof.Machine
end

