-- ==== Sys2Proof/Machine/Tables.lean ====
section
/-!
DEFINITION. The values the unit takes for its parameters (spec/00_scope.md R8): the field mask, the two
built-in generators, the alphabet, and a bech32 caller's target.
-/

namespace Sys2Proof.Machine

/-- `FIELD_POLY`, x^5 + x^3 + 1: bits 5, 3 and 0 (R8, R49). -/
def fieldPoly : BitVec 6 := 0x29

/-- `GEN_CODEX32` (R62). PRESUMED by the spec from general knowledge: log entry 4. -/
def genCodex32 : Vector Fe 13 := #v[25, 27, 17, 8, 0, 25, 25, 25, 31, 27, 24, 16, 16]

/-- `GEN_BECH32` (R63). PRESUMED by the spec from general knowledge: log entry 4. -/
def genBech32 : Vector Fe 6 := #v[29, 22, 20, 21, 29, 18]

/-- `ALPHABET`: the code of each value, `QPZRY9X8GF2TVDW0S3JN54KHCE6MUA7L` (R55, 90_conflicts.md C1).
Index 20 is `5`: log entry 5. -/
def alphabet : Vector Byte 32 :=
  #v[0x51, 0x50, 0x5A, 0x52, 0x59, 0x39, 0x58, 0x38, 0x47, 0x46, 0x32, 0x54, 0x56, 0x44, 0x57, 0x30,
     0x53, 0x33, 0x4A, 0x4E, 0x35, 0x34, 0x4B, 0x48, 0x43, 0x45, 0x36, 0x4D, 0x55, 0x41, 0x37, 0x4C]

/-- The parameters of this unit. -/
def unitParams : Params where
  genCodex32 := genCodex32
  genBech32 := genBech32
  alphabet := alphabet

/-- `BECH32_TARGET`, the residue a bech32 caller compares with: `[0,0,0,0,0,1]` (R74, 92 section 2). No
command reads it. -/
def bech32Target : Vector Fe 6 := #v[0, 0, 0, 0, 0, 1]

end Sys2Proof.Machine
end

