-- ==== Sys2Proof/Machine/Field.lean ====
section
/-!
DEFINITION. GF(32) arithmetic (spec/40_field_alu.md R46, R49, R50, R53): addition, the carry-less
shift-and-add multiplier, its two-stage form, and inversion as the 30th power.
-/

namespace Sys2Proof.Machine

/-- `fe_add`: bitwise exclusive-or (R46). -/
def feAdd (a b : Fe) : Fe := a ^^^ b

/-- Double the running right operand and fold bit 5 back (R49). -/
def feDouble (t : BitVec 6) : BitVec 6 :=
  let t := t <<< 1
  if t.getLsbD 5 then t ^^^ fieldPoly else t

/-- One round of the multiplier, for bit `k` of the left operand: accumulate, then double (R49). -/
def feMulRound (a : Fe) (rt : Fe × BitVec 6) (k : Nat) : Fe × BitVec 6 :=
  (if a.getLsbD k then rt.1 ^^^ rt.2.setWidth 5 else rt.1, feDouble rt.2)

/-- `fe_mul` by the datapath of R49: bits of the left operand, least significant first. -/
def feMul (a b : Fe) : Fe := ([0, 1, 2, 3, 4].foldl (feMulRound a) (0#5, b.setWidth 6)).1

/-- The unreduced carry-less product, at most 9 bits (R50). -/
def clProduct (a b : Fe) : BitVec 9 :=
  [0, 1, 2, 3, 4].foldl (fun p k => if a.getLsbD k then p ^^^ (b.setWidth 9 <<< k) else p) 0#9

/-- One reduction round for bit `k` of the product: `p <- p ^ (0x29 << (k - 5))` (R50). -/
def reduceRound (p : BitVec 9) (k : Nat) : BitVec 9 :=
  if p.getLsbD k then p ^^^ (fieldPoly.setWidth 9 <<< (k - 5)) else p

/-- `fe_mul` in the two separate stages of R50. No command exposes the product between them (R7). -/
def feMulTwoStage (a b : Fe) : Fe := ([8, 7, 6, 5].foldl reduceRound (clProduct a b)).setWidth 5

/-- `a^n` under `fe_mul`, with `a^0 = 1` (R53). -/
def fePow (a : Fe) : Nat → Fe
  | 0 => 1#5
  | n + 1 => feMul a (fePow a n)

/-- `fe_inv(a) = a^30` (R53). -/
def feInv (a : Fe) : Fe := fePow a 30

end Sys2Proof.Machine
end

