-- ==== Sys2Proof/Machine/CharConv.lean ====
section
/-!
DEFINITION. Character conversion: C2FE, FE2C (spec/41_char_conv.md). The functions take the alphabet as a
parameter (92_eei_decisions.md section 2, D29); the commands use the unit's.
-/

namespace Sys2Proof.Machine

/-- `char_of(v)`: the code in row `v` of the table (R56). -/
def charOf (table : Vector Byte 32) (v : Fe) : Byte := table[v.toNat]'v.isLt

/-- `elem_of(byte)`: the value whose row has that code, if there is one (R57). -/
def elemOf (table : Vector Byte 32) (byte : Byte) : Option Fe :=
  (table.toList.idxOf? byte).map (BitVec.ofNat 5)

/-- C2FE over a given alphabet (R58). -/
def c2feWith (table : Vector Byte 32) (byte : Byte) (s : State) : StepResult :=
  match elemOf table byte with
  | none => fail (.invalidChar byte) s
  | some v => finish (s.setResElem v)

/-- C2FE (R58). -/
def execC2fe (byte : Byte) (s : State) : StepResult := c2feWith unitParams.alphabet byte s

/-- FE2C (R59): `RES` receives the full 8-bit code. -/
def execFe2c (src : Src) (s : State) : StepResult :=
  finish (s.setResByte (charOf unitParams.alphabet (operandA src s)))

end Sys2Proof.Machine
end

