-- ==== Sys2Proof/Machine/Control.lean ====
section
/-!
DEFINITION. The control commands NOP and SCLR (spec/45_control.md).
-/

namespace Sys2Proof.Machine

/-- NOP (R83). -/
def execNop (s : State) : StepResult := finish s

/-- SCLR (R84): `STK <- 0 ; complete()`. -/
def execSclr (s : State) : StepResult := finish { s with status := statusUnstuck s.status }

end Sys2Proof.Machine
end

