-- ==== Sys2Proof/Machine/FieldAlu.lean ====
section
/-!
DEFINITION. The field-element ALU: FADD, FMUL, FINV (spec/40_field_alu.md).
-/

namespace Sys2Proof.Machine

/-- FADD (R48). -/
def execFadd (src : Src) (b : Fe) (s : State) : StepResult :=
  finish (s.setResElem (feAdd (operandA src s) b))

/-- FMUL (R52). -/
def execFmul (src : Src) (b : Fe) (s : State) : StepResult :=
  finish (s.setResElem (feMul (operandA src s) b))

/-- FINV (R54): INV_ZERO when opA = 0, whatever `RES[7:5]` is. -/
def execFinv (src : Src) (s : State) : StepResult :=
  if operandA src s = 0#5 then fail .invZero s
  else finish (s.setResElem (feInv (operandA src s)))

end Sys2Proof.Machine
end

