-- ==== Sys2Proof/Machine/Generator.lean ====
section
/-!
DEFINITION. Generator selection and loading: GSEL, GSET, GWR (spec/42_generator.md). GSEL's operation
takes the two built-in generators as parameters (D30); the command uses the unit's.
-/

namespace Sys2Proof.Machine

/-- GSEL over given built-in generators (R64). SEL 2 and 3 are refused at decode (R42); a term that
holds one raises the same error here: DEDUCED, log entry 9. -/
def gselWith (p : Params) (sel : BitVec 2) (s : State) : StepResult :=
  if sel = 0#2 then finish (s.loadGenerator 13#5 p.genCodex32.toList)
  else if sel = 1#2 then finish (s.loadGenerator 6#5 p.genBech32.toList)
  else fail .illegalCmd s

/-- GSEL (R64). -/
def execGsel (sel : BitVec 2) (s : State) : StepResult := gselWith unitParams sel s

/-- GSET (R65): BAD_LEN for 0 and 17 to 31. -/
def execGset (len : BitVec 5) (s : State) : StepResult :=
  if len = 0#5 ∨ Config.lmax < len.toNat then fail .badLen s
  else finish (s.loadGenerator len [])

/-- GWR (R66): any index, whatever `GLEN` is; `ACC` is not cleared. -/
def execGwr (idx : BitVec 4) (v : Fe) (s : State) : StepResult :=
  finish { s with gen := fileSet s.gen idx v }

end Sys2Proof.Machine
end

