-- ==== Sys2Proof/Machine/ShiftRegister.lean ====
section
/-!
DEFINITION. The shift-register step (spec/43_polymod.md R67) and feeding the unit's register with it.
-/

namespace Sys2Proof.Machine

/-- The shift toward index 0: element k + 1 moves to k for k up to L - 2, the input enters at L - 1, and
elements L to 15 are not touched (R67). -/
def shiftIn (len : Nat) (v : Fe) (acc : ElemFile) : ElemFile :=
  Vector.ofFn fun k =>
    if k.val + 1 < len then fileGet acc (k.val + 1)
    else if k.val + 1 = len then v
    else acc[k]

/-- `ACC[i] <- fe_add(ACC[i], fe_mul(c, GEN[i]))` for i in 0..L-1 (R67). -/
def addScaled (len : Nat) (c : Fe) (gen acc : ElemFile) : ElemFile :=
  Vector.ofFn fun k => if k.val < len then feAdd acc[k] (feMul c gen[k]) else acc[k]

/-- `step(v)` (R67): the carry is `ACC[0]` before the shift. -/
def srStep (len : Nat) (gen : ElemFile) (v : Fe) (acc : ElemFile) : ElemFile :=
  addScaled len (fileGet acc 0) gen (shiftIn len v acc)

/-- One step of the unit's register, with L = GLEN. -/
def State.feed (s : State) (v : Fe) : State :=
  { s with acc := srStep s.glen.toNat s.gen v s.acc }

/-- `n` steps with input 0 (R72). -/
def State.feedZeros (s : State) : Nat → State
  | 0 => s
  | n + 1 => (s.feed 0#5).feedZeros n

/-- A feeding command: NO_GEN while no generator is loaded, else its steps (R71, R72, R79, R80). -/
def State.feedingCommand (s fed : State) : StepResult :=
  if s.glen = 0#5 then fail .noGen s else finish fed

end Sys2Proof.Machine
end

