-- ==== Sys2Proof/Machine/Hrp.lean ====
section
/-!
DEFINITION. HRP feeding: HHI, HLO (spec/44_hrp.md). Any byte is legal.
-/

namespace Sys2Proof.Machine

/-- HHI (R79). -/
def execHhi (byte : Byte) (s : State) : StepResult := s.feedingCommand (s.feed (hrpHigh byte))

/-- HLO (R80). -/
def execHlo (byte : Byte) (s : State) : StepResult := s.feedingCommand (s.feed (hrpLow byte))

end Sys2Proof.Machine
end

