-- ==== Sys2Proof/Machine/Polymod.lean ====
section
/-!
DEFINITION. The polymod shift-register engine: PCLR, PSTEP, PPAD, PRD (spec/43_polymod.md).
-/

namespace Sys2Proof.Machine

/-- PCLR (R70): legal with `GLEN` = 0 too. -/
def execPclr (s : State) : StepResult := finish s.clearAcc

/-- PSTEP (R71). -/
def execPstep (src : Src) (s : State) : StepResult := s.feedingCommand (s.feed (operandA src s))

/-- PPAD (R72): GLEN steps with input 0, as one transition. -/
def execPpad (s : State) : StepResult := s.feedingCommand (s.feedZeros s.glen.toNat)

/-- The raw accumulator position `idx`, 0 from `GLEN` on (R73, RAW = 1). -/
def State.rawElem (s : State) (idx : Nat) : Fe :=
  if idx < s.glen.toNat then fileGet s.acc idx else 0#5

/-- Element `idx` of the normalised residue, highest order first, 0 from `NLEN` on (R73, RAW = 0). -/
def State.normElem (s : State) (idx : Nat) : Fe :=
  if idx < s.nlen then fileGet s.acc (s.glen.toNat - s.nlen + idx) else 0#5

/-- PRD and PRD.RAW (R73). -/
def execPrd (raw : Bool) (idx : BitVec 4) (s : State) : StepResult :=
  finish (s.setResElem (if raw then s.rawElem idx.toNat else s.normElem idx.toNat))

end Sys2Proof.Machine
end

