-- ==== Sys2Proof/Machine/Dispatch.lean ====
section
/-!
DEFINITION. One arm per command of the opcode table.
-/

namespace Sys2Proof.Machine

/-- The meaning of a command (spec/30_encoding.md R40). -/
def exec (i : Instr) (s : State) : Host.Outcome State Fault Refusal :=
  match i with
  | .nop => Sys2Proof.Machine.execNop s
  | .sclr => Sys2Proof.Machine.execSclr s
  | .fadd src b => Sys2Proof.Machine.execFadd src b s
  | .fmul src b => Sys2Proof.Machine.execFmul src b s
  | .finv src => Sys2Proof.Machine.execFinv src s
  | .c2fe byte => Sys2Proof.Machine.execC2fe byte s
  | .fe2c src => Sys2Proof.Machine.execFe2c src s
  | .gsel sel => Sys2Proof.Machine.execGsel sel s
  | .gset len => Sys2Proof.Machine.execGset len s
  | .gwr idx v => Sys2Proof.Machine.execGwr idx v s
  | .pclr => Sys2Proof.Machine.execPclr s
  | .pstep src => Sys2Proof.Machine.execPstep src s
  | .hhi byte => Sys2Proof.Machine.execHhi byte s
  | .hlo byte => Sys2Proof.Machine.execHlo byte s
  | .ppad => Sys2Proof.Machine.execPpad s
  | .prd raw idx => Sys2Proof.Machine.execPrd raw idx s

end Sys2Proof.Machine
end

