-- ==== Sys2Proof/Machine/Run.lean ====
section
/-!
DEFINITION. Executing a command word (spec/30_encoding.md R43), taking one action of the host
(spec/70_reset_and_hazards.md R100), and runs of words and of commands (R101).
-/

namespace Sys2Proof.Machine

/-- The unit executes one word: its command, or ILLEGAL_CMD for a word that is none, before any check
on the state (R41, R42, R43, R89). -/
def execWord (w : Word) (s : State) : StepResult :=
  match decode w with
  | .ok c => exec c s
  | .error _ => fail .illegalCmd s

/-- The unit takes one action of the host (R100). A read changes nothing (R26): the value the host gets
is `State.hostRead`. -/
def performAction (a : HostAction) (s : State) : StepResult :=
  match a with
  | .command w => execWord w s
  | .read _ => .next s
  | .reset => .next s.resetUnit

/-- The unit waits for a command (R28): nothing changes. DESIGN CHOICE, safe: log entry 2. -/
def idle (s : State) : StepResult := .next s

/-- One step: the host's next action, or waiting where it has none. -/
def stepOnce (s : State) : StepResult :=
  match s.takeAction with
  | none => idle s
  | some (a, rest) => performAction a rest

/-- A run of command words, applied in order (R101). -/
def runWords : List Word → State → StepResult
  | [], s => .next s
  | w :: ws, s =>
    match execWord w s with
    | .next t => runWords ws t
    | .fault r => .fault r
    | .refused r => .refused r

/-- A run of commands, applied in order. -/
def runInstrs : List Instr → State → StepResult
  | [], s => .next s
  | c :: cs, s =>
    match exec c s with
    | .next t => runInstrs cs t
    | .fault r => .fault r
    | .refused r => .refused r

end Sys2Proof.Machine
end

