-- ==== Sys2Proof/Machine/Step.lean ====
section
/-!
DEFINITION. The step of the unit, and how the host's question places a word where the step takes it.
-/

namespace Sys2Proof.Machine

/-- One step of the unit (spec/10_state.md R14, spec/70_reset_and_hazards.md R100). -/
def step (s : State) : Host.Outcome State Fault Refusal := stepOnce s

/-- The state in which the host presents that word next. The unit has no memory and no program counter
(R19, R27): a word is run by presenting it. Log entry 2. -/
def State.withFetchWord (s : State) (nbits w : Nat) : State := s.present (.command (tableWord nbits w))

end Sys2Proof.Machine
end

