-- ==== Sys2Proof/Machine/Poly.lean ====
section
/-!
DEFINITION. The source's pure functions, over sequences of elements of any length and apart from the
unit's registers: `polymod`, `normalize`, `hrp_expand`, `hrp_residue` (spec/43_polymod.md R68, R69;
spec/44_hrp.md R76, R77), and the polynomial arithmetic of their closed form (spec/42_generator.md R61,
R68). Claims compare the unit with them. Every sequence is written highest order first (R30). R61 and R68
give a generator 1 to 16 coefficients; that the functions are defined for other lengths, with the empty
sequence for length 0, is the model's DESIGN CHOICE: log entry 13.
-/

namespace Sys2Proof.Machine

/-- One step of a shift register held as a sequence (R67). For length 0, which R67 leaves out, there is no
register and the step gives the empty sequence; any length from 17 on is stepped alike: DESIGN CHOICE, log
entry 13. -/
def polyStep (g p : List Fe) (v : Fe) : List Fe :=
  match p with
  | [] => []
  | c :: rest => List.zipWith (fun x gk => feAdd x (feMul c gk)) (rest ++ [v]) g

/-- `polymod(s, g)` (R68): from all zeros, feed the sequence in order. Not normalised. R68 gives it for 1 to 16
coefficients; `polymod s [] = []` is the model's DESIGN CHOICE: log entry 13. -/
def polymod (s g : List Fe) : List Fe := s.foldl (polyStep g) (List.replicate g.length 0#5)

/-- `normalize(p)` (R69): strip the zero elements from index 0 upward. -/
def polyNormalize : List Fe → List Fe
  | [] => []
  | v :: rest => if v = 0#5 then polyNormalize rest else v :: rest

/-- `hrp_expand(h, L)` (R76). -/
def hrpExpand (h : List Byte) (len : Nat) : List Fe :=
  [1#5] ++ h.map hrpHigh ++ [0#5] ++ h.map hrpLow ++ List.replicate len 0#5

/-- `hrp_residue(h, g)` (R77). `hrpResidue h [] = []`, as `polymod` gives it: DESIGN CHOICE, log entry 13. -/
def hrpResidue (h : List Byte) (g : List Fe) : List Fe := polyNormalize (polymod (hrpExpand h g.length) g)

/-! ### The unit's registers as sequences -/

/-- `GEN[0..GLEN-1]`. -/
def State.genSeq (s : State) : List Fe := s.gen.toList.take s.glen.toNat

/-- `ACC[0..GLEN-1]`. -/
def State.accSeq (s : State) : List Fe := s.acc.toList.take s.glen.toNat

/-- The normalised residue in the unit (R69, R73). -/
def State.residue (s : State) : List Fe := polyNormalize s.accSeq

/-! ### Polynomial arithmetic over GF(32), coefficients highest order first -/

/-- The sum of two coefficient sequences of one length. -/
def polyAdd (p q : List Fe) : List Fe := List.zipWith feAdd p q

/-- A coefficient sequence times an element. -/
def polyScale (c : Fe) (p : List Fe) : List Fe := p.map (feMul c)

/-- The product of two polynomials, with q.length + p.length - 1 coefficients for a nonempty p. -/
def polyMul (q p : List Fe) : List Fe :=
  match q with
  | [] => List.replicate (p.length - 1) 0#5
  | c :: rest => polyAdd (polyScale c p ++ List.replicate rest.length 0#5) (0#5 :: polyMul rest p)

end Sys2Proof.Machine
end

