-- ==== Sys2Proof/Machine/Pseudo.lean ====
section
/-!
DEFINITION. The pseudo-instructions of spec/30_encoding.md R45, each the list of commands it expands to.
-/

namespace Sys2Proof.Machine

/-- Where a reduction's generator comes from (R45, R81): a built-in one, or a custom sequence. -/
inductive GenChoice where
  | codex32
  | bech32
  | custom (g : List Fe)
  deriving DecidableEq, Repr

/-- The writes `GWR k, g[k]`, from index `k` on. -/
def gwrFrom (k : Nat) (g : List Fe) : List Instr :=
  match g with
  | [] => []
  | v :: rest => .gwr (BitVec.ofNat 4 k) v :: gwrFrom (k + 1) rest

/-- The generator load of `POLYMOD`: `GSEL g`, or `GSET L` and then a GWR for each coefficient. A custom
generator has 1 to 16 coefficients (R65); the field widths wrap a longer one: DESIGN CHOICE, log entry 12. -/
def loadCommands (choice : GenChoice) : List Instr :=
  match choice with
  | .codex32 => [.gsel 0#2]
  | .bech32 => [.gsel 1#2]
  | .custom g => .gset (BitVec.ofNat 5 g.length) :: gwrFrom 0 g

/-- The coefficients of the chosen generator. -/
def generatorOf (choice : GenChoice) : List Fe :=
  match choice with
  | .codex32 => unitParams.genCodex32.toList
  | .bech32 => unitParams.genBech32.toList
  | .custom g => g

/-- `LDI a` = `FADD a, 0`. -/
def pseudoLdi (a : Fe) : List Instr := [.fadd (.imm a) 0#5]

/-- `FEED 'c'` = `C2FE 'c' ; PSTEP RES`. -/
def pseudoFeed (c : Byte) : List Instr := [.c2fe c, .pstep (.res 0#5)]

/-- `POLYMOD g, [s0, ..., sn-1]`. -/
def pseudoPolymod (choice : GenChoice) (s : List Fe) : List Instr :=
  loadCommands choice ++ s.map fun v => .pstep (.imm v)

/-- The feeding commands of `HRPRES` and of R81, after the generator load. -/
def hrpFeedCommands (h : List Byte) : List Instr :=
  [.pstep (.imm 1#5)] ++ h.map Instr.hhi ++ [.pstep (.imm 0#5)] ++ h.map Instr.hlo ++ [.ppad]

/-- `HRPRES g, "h0...hm-1"` (R45, R81). -/
def pseudoHrpres (choice : GenChoice) (h : List Byte) : List Instr :=
  loadCommands choice ++ hrpFeedCommands h

end Sys2Proof.Machine
end

