-- ==== Sys2Proof/Machine/Asm.lean ====
section
/-!
DEFINITION. The assembler syntax of spec/30_encoding.md R44: one line of text, as a list of characters,
to the command it names. What the rule leaves open of the text is DESIGN CHOICE, log entry 10.
-/

namespace Sys2Proof.Machine

/-- An operand as it is written (R44). -/
inductive AsmOperand where
  /-- A decimal or `0x` number. -/
  | number (n : Nat)
  /-- A quoted character, standing for its code. -/
  | quoted (code : Nat)
  /-- `RES`. -/
  | res
  /-- A generator's name. -/
  | generator (sel : BitVec 2)
  deriving DecidableEq, Repr

/-- What a line holds. -/
inductive AsmLine where
  /-- Nothing but blanks and a comment. -/
  | blank
  | command (c : Instr)
  deriving DecidableEq, Repr

/-- A digit's value: 0 to 9, and a to f in either case. -/
def digitValue (c : Char) : Option Nat :=
  let n := c.toNat
  if 48 ≤ n ∧ n ≤ 57 then some (n - 48)
  else if 65 ≤ n ∧ n ≤ 70 then some (n - 55)
  else if 97 ≤ n ∧ n ≤ 102 then some (n - 87)
  else none

/-- Digits in a base, onto the value read so far. -/
def digitsFrom (base acc : Nat) : List Char → Option Nat
  | [] => some acc
  | c :: rest =>
    match digitValue c with
    | some d => if d < base then digitsFrom base (acc * base + d) rest else none
    | none => none

/-- A decimal or `0x` number. -/
def parseNumber (cs : List Char) : Option Nat :=
  match cs with
  | [] => none
  | '0' :: 'x' :: c :: rest => digitsFrom 16 0 (c :: rest)
  | c :: rest => digitsFrom 10 0 (c :: rest)

/-- One operand. -/
def parseOperand (cs : List Char) : Option AsmOperand :=
  if cs = ['R', 'E', 'S'] then some .res
  else if cs = ['c', 'o', 'd', 'e', 'x', '3', '2'] then some (.generator 0)
  else if cs = ['b', 'e', 'c', 'h', '3', '2'] then some (.generator 1)
  else
    match cs with
    | ['\'', c, '\''] => if c.toNat < 256 then some (.quoted c.toNat) else none
    | _ => (parseNumber cs).map .number

/-- The line without its comment; a quoted `;` is a character. -/
def stripComment : List Char → List Char
  | [] => []
  | '\'' :: c :: '\'' :: rest => '\'' :: c :: '\'' :: stripComment rest
  | ';' :: _ => []
  | c :: rest => c :: stripComment rest

/-- Drop blanks at both ends. -/
def trimBlanks (cs : List Char) : List Char :=
  ((cs.dropWhile fun c => c == ' ').reverse.dropWhile fun c => c == ' ').reverse

/-- The operands between commas; a quoted `,` is a character. `cur` holds the operand's characters read
so far, the last one first. -/
def splitCommas (cur : List Char) : List Char → List (List Char)
  | [] => [cur.reverse]
  | '\'' :: c :: '\'' :: rest => splitCommas ('\'' :: c :: '\'' :: cur) rest
  | ',' :: rest => cur.reverse :: splitCommas [] rest
  | c :: rest => splitCommas (c :: cur) rest

/-- An element operand: 0 to 31. -/
def elemOperand : AsmOperand → Option Fe
  | .number n => if n < 32 then some (BitVec.ofNat 5 n) else none
  | .quoted _ => none
  | .res => none
  | .generator _ => none

/-- The A position: an element, or `RES`, which writes 0 into the A field. -/
def srcOperand : AsmOperand → Option Src
  | .number n => (elemOperand (.number n)).map .imm
  | .quoted _ => none
  | .res => some (.res 0#5)
  | .generator _ => none

/-- A byte operand: 0 to 255, or a quoted character. -/
def byteOperand : AsmOperand → Option Byte
  | .number n => if n < 256 then some (BitVec.ofNat 8 n) else none
  | .quoted c => some (BitVec.ofNat 8 c)
  | .res => none
  | .generator _ => none

/-- An index operand: 0 to 15. -/
def idxOperand : AsmOperand → Option (BitVec 4)
  | .number n => if n < 16 then some (BitVec.ofNat 4 n) else none
  | .quoted _ => none
  | .res => none
  | .generator _ => none

/-- A generator operand. -/
def selOperand : AsmOperand → Option (BitVec 2)
  | .generator sel => some sel
  | .number _ => none
  | .quoted _ => none
  | .res => none

/-- The command of a mnemonic and its operands. -/
def assemble (mnemonic : String) (ops : List AsmOperand) : Option Instr :=
  match ops with
  | [] =>
    if mnemonic = "NOP" then some .nop
    else if mnemonic = "SCLR" then some .sclr
    else if mnemonic = "PCLR" then some .pclr
    else if mnemonic = "PPAD" then some .ppad
    else none
  | [x] =>
    if mnemonic = "FINV" then (srcOperand x).map .finv
    else if mnemonic = "FE2C" then (srcOperand x).map .fe2c
    else if mnemonic = "PSTEP" then (srcOperand x).map .pstep
    else if mnemonic = "C2FE" then (byteOperand x).map .c2fe
    else if mnemonic = "HHI" then (byteOperand x).map .hhi
    else if mnemonic = "HLO" then (byteOperand x).map .hlo
    else if mnemonic = "GSEL" then (selOperand x).map .gsel
    else if mnemonic = "GSET" then (elemOperand x).map .gset
    else if mnemonic = "PRD" then (idxOperand x).map (.prd false)
    else if mnemonic = "PRD.RAW" then (idxOperand x).map (.prd true)
    else none
  | [x, y] =>
    if mnemonic = "FADD" then (srcOperand x).bind fun a => (elemOperand y).map (.fadd a)
    else if mnemonic = "FMUL" then (srcOperand x).bind fun a => (elemOperand y).map (.fmul a)
    else if mnemonic = "GWR" then (idxOperand x).bind fun k => (elemOperand y).map (.gwr k)
    else none
  | _ => none

/-- The mnemonic of a line, and the text after it. -/
def splitMnemonic (cs : List Char) : String × List Char :=
  (String.ofList (cs.takeWhile fun c => c != ' '), trimBlanks (cs.dropWhile fun c => c != ' '))

/-- All operands of a line. -/
def parseOperands (cs : List Char) : Option (List AsmOperand) :=
  match cs with
  | [] => some []
  | _ => (splitCommas [] cs).mapM fun op => parseOperand (trimBlanks op)

/-- One line of assembler text. -/
def assembleLine (cs : List Char) : Option AsmLine :=
  match trimBlanks (stripComment cs) with
  | [] => some .blank
  | line =>
    match parseOperands (splitMnemonic line).2 with
    | none => none
    | some ops => (assemble (splitMnemonic line).1 ops).map .command

end Sys2Proof.Machine
end

