-- ==== Sys2Proof/Safety.lean ====
section
/-!
DEFINITION. The terms claims are stated in: the invariant of the unit's states, the two ways a command
ends (spec/60_exceptions.md R87, R88), what the host cannot observe (spec/10_state.md R25), a clean run
(spec/70_reset_and_hazards.md R98, R101), and a caller's verdict (spec/43_polymod.md R74).
-/

namespace Sys2Proof.Machine

/-! ### The invariant -/

/-- The legal status words (R16): the reserved bits are 0, CODE is 0 to 5, and ERR = 0 exactly when
CODE = 0. R87 and R88 also make every error set STK, so ERR = 1 implies STK = 1. -/
abbrev StatusLegal (w : Byte) : Prop :=
  statusReserved w = 0#3 ∧ (statusCode w).toNat ≤ 5 ∧ (statusErr w = false ↔ statusCode w = 0#3) ∧
    (statusErr w = true → statusStk w = true)

/-- The legal values of `GLEN` (R18). -/
abbrev GlenLegal (s : State) : Prop := s.glen.toNat ≤ Config.lmax

/-- `ACC[i] = 0` for every i with GLEN <= i <= 15 (R25). -/
abbrev AccTailZero (s : State) : Prop := ∀ k < 16, s.glen.toNat ≤ k → fileGet s.acc k = 0#5

/-- The invariant of the unit's states (R16, R18, R25). -/
abbrev UnitInv (s : State) : Prop := StatusLegal s.status ∧ GlenLegal s ∧ AccTailZero s

/-! ### How a command ends -/

/-- From `s` to `t` a command completed (R88): ERR and CODE are 0, STK, the reserved bits and `ECHR` are
kept, and so are the host's actions still to come. It says nothing of the command's own writes. -/
abbrev Completes (s t : State) : Prop :=
  statusErr t.status = false ∧ statusCode t.status = 0#3 ∧ statusStk t.status = statusStk s.status ∧
    statusReserved t.status = statusReserved s.status ∧ t.echr = s.echr ∧ t.port = s.port

/-- `GLEN`, `GEN` and `ACC` are unchanged. -/
abbrev FilesKept (s t : State) : Prop := t.glen = s.glen ∧ t.gen = s.gen ∧ t.acc = s.acc

/-- From `s` to `t` an error was recorded (R87): ERR and STK are 1, CODE is the code, `ECHR` is as given,
and nothing else changed. -/
abbrev RecordsError (code : BitVec 3) (echr : Byte) (s t : State) : Prop :=
  statusErr t.status = true ∧ statusCode t.status = code ∧ statusStk t.status = true ∧
    statusReserved t.status = statusReserved s.status ∧ t.echr = echr ∧ t.res = s.res ∧
    FilesKept s t ∧ t.port = s.port

/-- In every state, the word records ILLEGAL_CMD (CODE 3) and changes nothing but `STATUS` (R41, R42). -/
abbrev IllegalCommand (w : Word) : Prop :=
  ∀ s : State, ∃ t, execWord w s = .next t ∧ RecordsError 3#3 s.echr s t

/-! ### What the host cannot observe -/

/-- Two states that differ at most in `GEN[i]` for i >= GLEN, the hidden state of R25. -/
abbrev SameButHidden (s t : State) : Prop :=
  t.res = s.res ∧ t.status = s.status ∧ t.echr = s.echr ∧ t.glen = s.glen ∧ t.acc = s.acc ∧
    t.port = s.port ∧ ∀ k < 16, k < s.glen.toNat → fileGet t.gen k = fileGet s.gen k

/-! ### Runs and callers -/

/-- No command has failed since the last SCLR or reset (R98, R101): what a host tests at the end of a
sequence before it trusts the residue. -/
abbrev Clean (s : State) : Prop := statusStk s.status = false

/-- A caller's verdict (R74, R98): no command failed, and the residue is the target's normal form. The unit
does not compute it. -/
def callerVerdict (target : List Fe) (s : State) : Bool :=
  !statusStk s.status && decide (s.residue = polyNormalize target)

/-- A bech32 caller's verdict. -/
def bech32Verdict (s : State) : Bool := callerVerdict bech32Target.toList s

/-- A codex32 caller's verdict, with the OPEN target (D22). -/
def codex32Verdict (s : State) : Bool := callerVerdict Config.codex32Target.toList s

end Sys2Proof.Machine
end

