-- ==== Sys2Proof/Certificates/Slice0/Obligations.lean ====
section
/-!
DEFINITION. What is to be proved of the unit. Each statement's docstring names the rule of spec/ it comes
from. `RES`, `STATUS`, `ECHR`, `GLEN`, `GEN` and `ACC` are fields of `State`; `Completes`, `FilesKept`,
`RecordsError` and `IllegalCommand` (Safety.lean) are the frames: what a command leaves unchanged.
-/

open Sys2Proof Sys2Proof.Machine

/-! ### Reset, the step, the host -/

/-- R94: after reset every register is 0. -/
def Obligations.ResetZeroesEveryRegister : Prop :=
  State.reset.res = 0#8 ∧ statusErr State.reset.status = false ∧ statusCode State.reset.status = 0#3 ∧
    statusStk State.reset.status = false ∧ statusReserved State.reset.status = 0#3 ∧
    State.reset.echr = 0#8 ∧ State.reset.glen = 0#5 ∧
    (∀ k < 16, fileGet State.reset.gen k = 0#5 ∧ fileGet State.reset.acc k = 0#5) ∧ State.reset.nlen = 0

/-- R94, R100: a reset by the host enters that state from every state. That the host's later actions are
kept, and that a reset lands between commands, is the model's choice: log entry 3. -/
def Obligations.HostResetEntersResetState : Prop :=
  ∀ (s : State) (rest : List HostAction), s.port = .reset :: rest →
    ∃ t, step s = .next t ∧ t.res = 0#8 ∧ t.status = 0#8 ∧ t.echr = 0#8 ∧ t.glen = 0#5 ∧
      (∀ k < 16, fileGet t.gen k = 0#5 ∧ fileGet t.acc k = 0#5) ∧ t.nlen = 0 ∧ t.port = rest

/-- R16, R18, R25: the invariant holds after reset. -/
def Obligations.ResetMeetsInvariant : Prop := UnitInv State.reset

/-- R16, R18, R25: every step keeps the invariant, whatever the host does next. That ERR = 1 implies STK = 1 is
read from R87 and R88: log entry 8. -/
def Obligations.EveryStepKeepsInvariant : Prop :=
  ∀ s t : State, UnitInv s → step s = .next t → UnitInv t

/-- R42, R90: in every state, every command and every word has a next state, and so has every step. -/
def Obligations.NothingStopsTheUnit : Prop :=
  (∀ (c : Instr) (s : State), ∃ t, exec c s = .next t) ∧
    (∀ (w : Word) (s : State), ∃ t, execWord w s = .next t) ∧ ∀ s : State, ∃ t, step s = .next t

/-- R14, R32, R43: when the host's next action is a word that decodes to a command, the step is that
command's meaning on the state with that action taken. The port is the model's form: log entries 1, 2. -/
def Obligations.StepRunsDecodedCommand : Prop :=
  (∀ (s : State) (w : Word) (rest : List HostAction) (c : Instr),
      s.port = .command w :: rest → decode w = .ok c → step s = exec c { s with port := rest }) ∧
    ∀ (s : State) (w : Nat) (c : Instr), decodeTableWord 16 w = some c →
      step (s.withFetchWord 16 w) = exec c s

/-- R26, R28, R100: a host read changes no register and no read's answer, what it answers is the register
zero-extended. The model's own clauses: the port (log entries 1, 3), and that a unit with no action of the
host to take steps to itself (log entry 2, a DESIGN CHOICE; R28 says only that it waits after reset). -/
def Obligations.HostReadsHaveNoSideEffect : Prop :=
  (∀ (s : State) (r : OutReg) (rest : List HostAction), s.port = .read r :: rest →
      ∃ t, step s = .next t ∧ t = { s with port := rest } ∧ ∀ q, t.hostRead q = s.hostRead q) ∧
    (∀ s : State, s.port = [] → step s = .next s) ∧
    ∀ s : State, s.hostRead .res = s.res ∧ s.hostRead .echr = s.echr ∧
      (s.hostRead .status).toNat % 32 = s.status.toNat % 32 ∧ (s.hostRead .status).toNat < 32 ∧
      (s.hostRead .glen).toNat = s.glen.toNat ∧ (s.hostRead .nlen).toNat = s.nlen

/-- R33, R101: presenting a sequence of words and stepping once for each is the run of the words in order,
with the later actions of the host still to come. The port is the model's form: log entry 1. -/
def Obligations.StepsRunPresentedWordsInOrder : Prop :=
  ∀ (ws : List Word) (s : State) (rest : List HostAction),
    Sys2Proof.core.run ws.length { s with port := ws.map HostAction.command ++ rest } =
      runWords ws { s with port := rest }

/-! ### Encoding -/

/-- R37: the decoder reads back every well-formed command from its word. -/
def Obligations.DecodeOfEncode : Prop :=
  ∀ c : Instr, c.wellFormed = true → decode (encode c) = .ok c

/-- R37, R43: what the decoder accepts is well formed and is that word: no bit is dropped. -/
def Obligations.EncodeOfDecode : Prop :=
  ∀ (w : Word) (c : Instr), decode w = .ok c → c.wellFormed = true ∧ encode c = w

/-- R40: the decoder accepts a word exactly when one row of the opcode table matches it, and then it reads
that row's command; no word matches two rows. -/
def Obligations.DecoderAgreesWithOpcodeTable : Prop :=
  ∀ w : Word,
    (∃ c row, decode w = .ok c ∧ matchingRows w = [row] ∧ row.mnemonic = c.mnemonic) ∨
      ((∃ e, decode w = .error e) ∧ matchingRows w = [])

/-- R44's example words and one word of every other command decode to the commands they stand for. -/
def Obligations.SpecWordsDecode : Prop :=
  decode 0x10ED = .ok (.fadd (.imm 7) 13) ∧ decode 0x2802 = .ok (.fmul (.res 0) 2) ∧
    decode 0x4051 = .ok (.c2fe 0x51) ∧ decode 0x6001 = .ok (.gsel 1#2) ∧
    decode 0xE015 = .ok (.prd true 5) ∧ decode 0x3009 = .ok (.finv (.imm 9)) ∧
    decode 0x81FF = .ok (.gwr 15 31) ∧ decode 0xA800 = .ok (.pstep (.res 0)) ∧
    decode 0xB061 = .ok (.hhi 0x61) ∧ decode 0x0001 = .ok .sclr ∧
    decode 0x0000 = .ok .nop ∧ decode 0x5014 = .ok (.fe2c (.imm 20)) ∧
    decode 0x7010 = .ok (.gset 16) ∧ decode 0x9000 = .ok .pclr ∧
    decode 0xC073 = .ok (.hlo 0x73) ∧ decode 0xD000 = .ok .ppad

/-- R44: the assembler reads the rule's examples. -/
def Obligations.AssemblerReadsExamples : Prop :=
  assembleLine ['F', 'A', 'D', 'D', ' ', '7', ',', ' ', '1', '3'] =
      some (.command (.fadd (.imm 7) 13)) ∧
    assembleLine ['F', 'M', 'U', 'L', ' ', 'R', 'E', 'S', ',', ' ', '2'] =
      some (.command (.fmul (.res 0) 2)) ∧
    assembleLine ['C', '2', 'F', 'E', ' ', '\'', 'Q', '\''] = some (.command (.c2fe 0x51)) ∧
    assembleLine ['G', 'S', 'E', 'L', ' ', 'b', 'e', 'c', 'h', '3', '2'] =
      some (.command (.gsel 1#2)) ∧
    assembleLine ['P', 'R', 'D', '.', 'R', 'A', 'W', ' ', '5'] = some (.command (.prd true 5))

/-- R29: a listing stores each word most significant byte first, and reads back. -/
def Obligations.ListingReadsBackMostSignificantByteFirst : Prop :=
  (∀ ws : List Word, wordsOfListing (listingOfWords ws) = .ok ws) ∧
    (∀ (w : Word) (ws : List Word),
      listingOfWords (w :: ws) =
        BitVec.ofNat 8 (w.toNat / 256) :: BitVec.ofNat 8 (w.toNat % 256) :: listingOfWords ws) ∧
    ∀ (c : Instr) (ws : List Word), c.wellFormed = true →
      decodeListing (listingOfWords (encode c :: ws)) = .ok (c, listingOfWords ws)

/-- R41: for every opcode, a word with a bit of its format's reserved mask set raises ILLEGAL_CMD and
changes no state other than `STATUS`. -/
def Obligations.ReservedBitsRaiseIllegalCmd : Prop :=
  ∀ w : Word, ∀ om ∈
      [(0x0#4, 0x0FFE#16), (0x1#4, 0x0400#16), (0x2#4, 0x0400#16), (0x3#4, 0x07E0#16),
        (0x4#4, 0x0F00#16), (0x5#4, 0x07E0#16), (0x6#4, 0x0FFC#16), (0x7#4, 0x0FE0#16),
        (0x8#4, 0x0E00#16), (0x9#4, 0x0FFF#16), (0xA#4, 0x07E0#16), (0xB#4, 0x0F00#16),
        (0xC#4, 0x0F00#16), (0xD#4, 0x0FFF#16), (0xE#4, 0x0FE0#16)],
    w.extractLsb' 12 4 = om.1 → w &&& om.2 ≠ 0#16 → IllegalCommand w

/-- R42: opcode 0xF and GSEL with SEL 2 or 3 raise ILLEGAL_CMD; every word is either a command, which
executes, or records ILLEGAL_CMD in every state, and never both. -/
def Obligations.EveryWordIsCommandOrIllegalCmd : Prop :=
  (∀ w : Word, w.extractLsb' 12 4 = 0xF#4 → IllegalCommand w) ∧
    (∀ w : Word, w.extractLsb' 12 4 = 0x6#4 → 2 ≤ (w.extractLsb' 0 2).toNat → IllegalCommand w) ∧
    ∀ w : Word,
      (∃ c, c.wellFormed = true ∧ encode c = w ∧ ∀ s, execWord w s = exec c s) ∨
        ((∀ c, c.wellFormed = true → encode c ≠ w) ∧ IllegalCommand w)

/-- R39: operand A is the immediate when S = 0 and `RES[4:0]` as it stands when S = 1; the ignored A field
changes nothing, in either format. -/
def Obligations.OperandASelection : Prop :=
  (∀ (a : Fe) (s : State), operandA (.imm a) s = a) ∧
    (∀ (a : Fe) (s : State), operandA (.res a) s = s.res.extractLsb' 0 5) ∧
    (∀ (a b v : Fe) (s : State), exec (.fadd (.res a) v) s = exec (.fadd (.res b) v) s ∧
      exec (.fmul (.res a) v) s = exec (.fmul (.res b) v) s) ∧
    (∀ (a b : Fe) (s : State), exec (.finv (.res a)) s = exec (.finv (.res b)) s ∧
      exec (.fe2c (.res a)) s = exec (.fe2c (.res b)) s ∧
      exec (.pstep (.res a)) s = exec (.pstep (.res b)) s) ∧
    (∀ (a b : Fe), decode (0x1#4 ++ 1#1 ++ 0#1 ++ a ++ b) = .ok (.fadd (.res a) b) ∧
      decode (0x2#4 ++ 1#1 ++ 0#1 ++ a ++ b) = .ok (.fmul (.res a) b)) ∧
    ∀ a : Fe, decode (0x3#4 ++ 1#1 ++ 0#6 ++ a) = .ok (.finv (.res a)) ∧
      decode (0x5#4 ++ 1#1 ++ 0#6 ++ a) = .ok (.fe2c (.res a)) ∧
      decode (0xA#4 ++ 1#1 ++ 0#6 ++ a) = .ok (.pstep (.res a))

/-! ### Field arithmetic -/

/-- R47: the laws of `fe_add`. -/
def Obligations.FieldAdditionLaws : Prop :=
  ∀ a b c : Fe, feAdd a b = feAdd b a ∧ feAdd (feAdd a b) c = feAdd a (feAdd b c) ∧ feAdd a 0#5 = a ∧
    feAdd a a = 0#5 ∧ feAdd (feAdd a b) b = a

/-- R51: the laws of `fe_mul`, no zero divisors, and 2 generates the group of order 31. -/
def Obligations.FieldMultiplicationLaws : Prop :=
  (∀ a b c : Fe, feMul a b = feMul b a ∧ feMul (feMul a b) c = feMul a (feMul b c) ∧
      feMul a (feAdd b c) = feAdd (feMul a b) (feMul a c) ∧ feMul a 1#5 = a ∧ feMul a 0#5 = 0#5 ∧
      (feMul a b = 0#5 → a = 0#5 ∨ b = 0#5)) ∧
    (∀ a : Fe, a ≠ 0#5 → ∃ k < 31, fePow 2#5 k = a) ∧ fePow 2#5 31 = 1#5 ∧
    ∀ k < 31, 0 < k → fePow 2#5 k ≠ 1#5

/-- R50: the interleaved datapath and the two separate stages give the same product. -/
def Obligations.TwoStageMultiplierAgrees : Prop := ∀ a b : Fe, feMulTwoStage a b = feMul a b

/-- R53: `fe_inv(a)` is a^30, the unique inverse of a nonzero a, and 0 for a = 0. -/
def Obligations.InversionIsUniqueInverse : Prop :=
  (∀ a : Fe, feInv a = (List.replicate 30 a).foldr feMul 1#5) ∧
    (∀ a x : Fe, a ≠ 0#5 → (feMul a x = 1#5 ↔ x = feInv a)) ∧ feInv 0#5 = 0#5 ∧
    (List.range 32).map (fun n => (feInv (BitVec.ofNat 5 n)).toNat) =
      [0, 1, 20, 24, 10, 8, 12, 29, 5, 11, 4, 9, 6, 28, 26, 31,
        22, 18, 17, 23, 2, 25, 16, 19, 3, 21, 14, 30, 13, 7, 27, 15]

/-- R48: FADD, its encoding, its only error, and its effect and frame in every state. -/
def Obligations.FaddAddsIntoRes : Prop :=
  (∀ a b : Fe, decode (0x1#4 ++ 0#1 ++ 0#1 ++ a ++ b) = .ok (.fadd (.imm a) b) ∧
      decode (0x1#4 ++ 1#1 ++ 0#1 ++ a ++ b) = .ok (.fadd (.res a) b)) ∧
    (∀ w : Word, w.extractLsb' 12 4 = 0x1#4 → w.getLsbD 10 = true → IllegalCommand w) ∧
    ∀ (src : Src) (b : Fe) (s : State), ∃ t, exec (.fadd src b) s = .next t ∧
      t.res = (operandA src s ^^^ b).setWidth 8 ∧ Completes s t ∧ FilesKept s t

/-- R52: FMUL, its encoding, its only error, and its effect and frame in every state. -/
def Obligations.FmulMultipliesIntoRes : Prop :=
  (∀ a b : Fe, decode (0x2#4 ++ 0#1 ++ 0#1 ++ a ++ b) = .ok (.fmul (.imm a) b) ∧
      decode (0x2#4 ++ 1#1 ++ 0#1 ++ a ++ b) = .ok (.fmul (.res a) b)) ∧
    (∀ w : Word, w.extractLsb' 12 4 = 0x2#4 → w.getLsbD 10 = true → IllegalCommand w) ∧
    (feMul 31#5 31#5 = 29#5 ∧ feMul 2#5 16#5 = 9#5 ∧ feMul 7#5 13#5 = 10#5 ∧
      ∀ a : Fe, feMul a 1#5 = a ∧ feMul a 0#5 = 0#5 ∧ feMul 0#5 a = 0#5) ∧
    ∀ (src : Src) (b : Fe) (s : State), ∃ t, exec (.fmul src b) s = .next t ∧
      t.res = (feMul (operandA src s) b).setWidth 8 ∧ Completes s t ∧ FilesKept s t

/-- R54: FINV writes the inverse of a nonzero operand, and a `FINV RES` after it gives the operand back; for
0 it raises INV_ZERO and leaves `RES`. -/
def Obligations.FinvInvertsOrRaisesInvZero : Prop :=
  (∀ a : Fe, decode (0x3#4 ++ 0#1 ++ 0#6 ++ a) = .ok (.finv (.imm a)) ∧
      decode (0x3#4 ++ 1#1 ++ 0#6 ++ a) = .ok (.finv (.res a))) ∧
    (∀ w : Word, w.extractLsb' 12 4 = 0x3#4 → w &&& 0x07E0#16 ≠ 0#16 → IllegalCommand w) ∧
    (∀ (src : Src) (s : State), operandA src s = 0#5 →
      ∃ t, exec (.finv src) s = .next t ∧ RecordsError 2#3 s.echr s t) ∧
    (∀ (src : Src) (s : State), operandA src s ≠ 0#5 → ∃ t x u, exec (.finv src) s = .next t ∧
      t.res = x.setWidth 8 ∧ x = feInv (operandA src s) ∧ feMul (operandA src s) x = 1#5 ∧
      Completes s t ∧ FilesKept s t ∧
      exec (.finv (.res 0#5)) t = .next u ∧ u.res = (operandA src s).setWidth 8) ∧
    feInv 1#5 = 1#5 ∧ feInv 9#5 = 0x0B#5

/-! ### Character conversion -/

/-- R60: the round trips and the failures of `elem_of`, over every alphabet of 32 distinct codes; the
unit's alphabet is one, and the string as the source prints it, with `S` at index 20, breaks them. -/
def Obligations.CharacterRoundTrip : Prop :=
  (∀ table : Vector Byte 32, table.toList.Nodup →
      (∀ v : Fe, elemOf table (charOf table v) = some v) ∧
      (∀ v b, elemOf table b = some v → charOf table v = b) ∧
      ∀ b : Byte, elemOf table b = none ↔ b ∉ table.toList) ∧
    unitParams.alphabet.toList.Nodup ∧
    elemOf (unitParams.alphabet.set 20 0x53#8) (charOf (unitParams.alphabet.set 20 0x53#8) 20#5) ≠
      some 20#5

/-- R55 with its correction (90_conflicts.md C1, the spec's decision D29, log entry 5): the unit's alphabet
is the corrected string, and the upper-case letters and digits outside it are `1`, `B`, `I` and `O`. -/
def Obligations.UnitAlphabetIsCorrectedString : Prop :=
  unitParams.alphabet.toList =
      ['Q', 'P', 'Z', 'R', 'Y', '9', 'X', '8', 'G', 'F', '2', 'T', 'V', 'D', 'W', '0',
        'S', '3', 'J', 'N', '5', '4', 'K', 'H', 'C', 'E', '6', 'M', 'U', 'A', '7', 'L'].map
        (fun c => BitVec.ofNat 8 c.toNat) ∧
    ∀ b : Byte, (48 ≤ b.toNat ∧ b.toNat ≤ 57 ∨ 65 ≤ b.toNat ∧ b.toNat ≤ 90) →
      (elemOf unitParams.alphabet b = none ↔ b ∈ [0x31#8, 0x42#8, 0x49#8, 0x4F#8])

/-- R58: C2FE writes the value of an alphabet code, and raises INVALID_CHAR with the byte in `ECHR` and
`RES` unchanged for every other byte. -/
def Obligations.C2feConvertsOrRaisesInvalidChar : Prop :=
  (∀ byte : Byte, decode (0x4#4 ++ 0#4 ++ byte) = .ok (.c2fe byte)) ∧
    (∀ w : Word, w.extractLsb' 12 4 = 0x4#4 → w &&& 0x0F00#16 ≠ 0#16 → IllegalCommand w) ∧
    (∀ (byte : Byte) (s : State), byte ∉ unitParams.alphabet.toList →
      ∃ t, exec (.c2fe byte) s = .next t ∧ RecordsError 1#3 byte s t) ∧
    ∀ (v : Fe) (s : State), ∃ t, exec (.c2fe (charOf unitParams.alphabet v)) s = .next t ∧
      t.res = v.setWidth 8 ∧ Completes s t ∧ FilesKept s t

/-- R59: FE2C writes the full 8-bit code of the operand's character, in every state. -/
def Obligations.Fe2cWritesCharacterCode : Prop :=
  (∀ a : Fe, decode (0x5#4 ++ 0#1 ++ 0#6 ++ a) = .ok (.fe2c (.imm a)) ∧
      decode (0x5#4 ++ 1#1 ++ 0#6 ++ a) = .ok (.fe2c (.res a))) ∧
    (∀ w : Word, w.extractLsb' 12 4 = 0x5#4 → w &&& 0x07E0#16 ≠ 0#16 → IllegalCommand w) ∧
    ∀ (src : Src) (s : State), ∃ t, exec (.fe2c src) s = .next t ∧
      unitParams.alphabet.toList[(operandA src s).toNat]? = some t.res ∧
      Completes s t ∧ FilesKept s t

/-! ### Generators -/

/-- R64: GSEL loads the whole generator file with the selected built-in generator and 0, sets `GLEN` to its
length, and clears the accumulator. -/
def Obligations.GselLoadsGeneratorAndClearsAcc : Prop :=
  (decode 0x6000 = .ok (.gsel 0#2) ∧ decode 0x6001 = .ok (.gsel 1#2)) ∧
    (∀ w : Word, w.extractLsb' 12 4 = 0x6#4 → w &&& 0x0FFC#16 ≠ 0#16 ∨ 2 ≤ (w.extractLsb' 0 2).toNat →
      IllegalCommand w) ∧
    (∀ s : State, ∃ t, exec (.gsel 0#2) s = .next t ∧ t.glen.toNat = 13 ∧
      (∀ k < 16, fileGet t.gen k = if h : k < 13 then unitParams.genCodex32[k] else 0#5) ∧
      (∀ k < 16, fileGet t.acc k = 0#5) ∧ t.res = s.res ∧ Completes s t) ∧
    ∀ s : State, ∃ t, exec (.gsel 1#2) s = .next t ∧ t.glen.toNat = 6 ∧
      (∀ k < 16, fileGet t.gen k = if h : k < 6 then unitParams.genBech32[k] else 0#5) ∧
      (∀ k < 16, fileGet t.acc k = 0#5) ∧ t.res = s.res ∧ Completes s t

/-- The spec's built-in generator values, which it takes from general knowledge (R62, R63, D30, log entry
4), and its checks of them: the values pack into the published constants, and the multiples by 2, 4, 8 and
16 under `fe_mul` pack into the companion constants. -/
def Obligations.BuiltinGeneratorsMatchPublishedConstants : Prop :=
  unitParams.genCodex32.toList = [25, 27, 17, 8, 0, 25, 25, 25, 31, 27, 24, 16, 16] ∧
    unitParams.genBech32.toList = [29, 22, 20, 21, 29, 18] ∧
    [1, 2, 4, 8, 16].map (fun m => (polyScale m unitParams.genCodex32.toList).foldl
        (fun n v => n * 32 + v.toNat) 0) =
      [0x19dc500ce73fde210, 0x1bfae00def77fe529, 0x1fbd920fffe7bee52, 0x1739640bdeee3fdad,
        0x07729a039cfc75f5a] ∧
    [1, 2, 4, 8, 16].map (fun m => (polyScale m unitParams.genBech32.toList).foldl
        (fun n v => n * 32 + v.toNat) 0) =
      [0x3b6a57b2, 0x26508e6d, 0x1ea119fa, 0x3d4233dd, 0x2a1462b3]

/-- R65: GSET takes lengths 1 to 16, clearing `GEN` and `ACC`, and raises BAD_LEN for the others. -/
def Obligations.GsetSetsLengthOrRaisesBadLen : Prop :=
  (∀ len : BitVec 5, decode (0x7#4 ++ 0#7 ++ len) = .ok (.gset len)) ∧
    (∀ w : Word, w.extractLsb' 12 4 = 0x7#4 → w &&& 0x0FE0#16 ≠ 0#16 → IllegalCommand w) ∧
    (∀ (len : BitVec 5) (s : State), len.toNat = 0 ∨ 17 ≤ len.toNat →
      ∃ t, exec (.gset len) s = .next t ∧ RecordsError 4#3 s.echr s t) ∧
    ∀ (len : BitVec 5) (s : State), 1 ≤ len.toNat → len.toNat ≤ 16 →
      ∃ t, exec (.gset len) s = .next t ∧ t.glen = len ∧
        (∀ k < 16, fileGet t.gen k = 0#5 ∧ fileGet t.acc k = 0#5) ∧ t.res = s.res ∧ Completes s t

/-- R66: GWR writes one element of `GEN` and nothing else; at an index from `GLEN` on the loaded generator
is the same as before. -/
def Obligations.GwrWritesOneCoefficient : Prop :=
  (∀ (idx : BitVec 4) (v : Fe), decode (0x8#4 ++ 0#3 ++ idx ++ v) = .ok (.gwr idx v)) ∧
    (∀ w : Word, w.extractLsb' 12 4 = 0x8#4 → w &&& 0x0E00#16 ≠ 0#16 → IllegalCommand w) ∧
    ∀ (idx : BitVec 4) (v : Fe) (s : State), ∃ t, exec (.gwr idx v) s = .next t ∧
      (∀ k < 16, fileGet t.gen k = if k = idx.toNat then v else fileGet s.gen k) ∧
      (s.glen.toNat ≤ idx.toNat → t.genSeq = s.genSeq) ∧
      t.res = s.res ∧ t.glen = s.glen ∧ t.acc = s.acc ∧ Completes s t

/-! ### The shift register -/

/-- R67: one step, element by element: the carry is the old element 0, the others move toward index 0, the
input enters at L - 1, each of the L elements adds the carry times its coefficient, and elements L to 15
are not touched. -/
def Obligations.ShiftRegisterStep : Prop :=
  ∀ (len : Nat) (gen acc : ElemFile) (v : Fe), 1 ≤ len → len ≤ 16 →
    (∀ k, k + 1 < len → fileGet (srStep len gen v acc) k =
      feAdd (fileGet acc (k + 1)) (feMul (fileGet acc 0) (fileGet gen k))) ∧
    fileGet (srStep len gen v acc) (len - 1) =
      feAdd v (feMul (fileGet acc 0) (fileGet gen (len - 1))) ∧
    ∀ k, len ≤ k → k < 16 → fileGet (srStep len gen v acc) k = fileGet acc k

/-- R70: PCLR clears `ACC` and nothing else, in every state. -/
def Obligations.PclrClearsAcc : Prop :=
  decode 0x9000 = .ok .pclr ∧
    (∀ w : Word, w.extractLsb' 12 4 = 0x9#4 → w &&& 0x0FFF#16 ≠ 0#16 → IllegalCommand w) ∧
    ∀ s : State, ∃ t, exec .pclr s = .next t ∧ (∀ k < 16, fileGet t.acc k = 0#5) ∧
      t.res = s.res ∧ t.glen = s.glen ∧ t.gen = s.gen ∧ Completes s t

/-- R71: PSTEP raises NO_GEN while `GLEN` is 0, and else makes one step of the register with opA. -/
def Obligations.PstepFeedsOneElement : Prop :=
  (∀ a : Fe, decode (0xA#4 ++ 0#1 ++ 0#6 ++ a) = .ok (.pstep (.imm a)) ∧
      decode (0xA#4 ++ 1#1 ++ 0#6 ++ a) = .ok (.pstep (.res a))) ∧
    (∀ w : Word, w.extractLsb' 12 4 = 0xA#4 → w &&& 0x07E0#16 ≠ 0#16 → IllegalCommand w) ∧
    (∀ (src : Src) (s : State), s.glen = 0#5 →
      ∃ t, exec (.pstep src) s = .next t ∧ RecordsError 5#3 s.echr s t) ∧
    ∀ (src : Src) (s : State), s.glen ≠ 0#5 → ∃ t, exec (.pstep src) s = .next t ∧
      t.acc = srStep s.glen.toNat s.gen (operandA src s) s.acc ∧
      t.res = s.res ∧ t.glen = s.glen ∧ t.gen = s.gen ∧ Completes s t

/-- R72: PPAD raises NO_GEN while `GLEN` is 0, and else is exactly `GLEN` consecutive `PSTEP 0`; it leaves
the remainder of the residue times x^L by the loaded generator. -/
def Obligations.PpadIsGlenZeroSteps : Prop :=
  decode 0xD000 = .ok .ppad ∧
    (∀ w : Word, w.extractLsb' 12 4 = 0xD#4 → w &&& 0x0FFF#16 ≠ 0#16 → IllegalCommand w) ∧
    (∀ s : State, s.glen = 0#5 → ∃ t, exec .ppad s = .next t ∧ RecordsError 5#3 s.echr s t) ∧
    (∀ s : State, s.glen ≠ 0#5 → ∃ t, exec .ppad s = .next t ∧
      runInstrs (List.replicate s.glen.toNat (.pstep (.imm 0#5))) s = .next t ∧
      t.res = s.res ∧ t.glen = s.glen ∧ t.gen = s.gen ∧ Completes s t) ∧
    ∀ s : State, s.glen ≠ 0#5 → GlenLegal s → ∃ t, exec .ppad s = .next t ∧
      t.accSeq = polymod (s.accSeq ++ List.replicate s.glen.toNat 0#5) s.genSeq

/-- R73: PRD.RAW reads a raw position and PRD an element of the normalised residue, highest order first, and
both give 0 out of range, never an error. -/
def Obligations.PrdReadsResidue : Prop :=
  (∀ idx : BitVec 4, decode (0xE#4 ++ 0#7 ++ 0#1 ++ idx) = .ok (.prd false idx) ∧
      decode (0xE#4 ++ 0#7 ++ 1#1 ++ idx) = .ok (.prd true idx)) ∧
    (∀ w : Word, w.extractLsb' 12 4 = 0xE#4 → w &&& 0x0FE0#16 ≠ 0#16 → IllegalCommand w) ∧
    (∀ (idx : BitVec 4) (s : State), ∃ t, exec (.prd true idx) s = .next t ∧
      t.res = (if idx.toNat < s.glen.toNat then fileGet s.acc idx.toNat else 0#5).setWidth 8 ∧
      Completes s t ∧ FilesKept s t) ∧
    (∀ (idx : BitVec 4) (s : State), ∃ t, exec (.prd false idx) s = .next t ∧
      t.res = (if idx.toNat < s.nlen then fileGet s.acc (s.glen.toNat - s.nlen + idx.toNat)
        else 0#5).setWidth 8 ∧
      Completes s t ∧ FilesKept s t) ∧
    ∀ (idx : BitVec 4) (s : State), GlenLegal s → ∃ t, exec (.prd false idx) s = .next t ∧
      t.res = (s.residue.getD idx.toNat 0#5).setWidth 8

/-- R23, R69: `NLEN` is 0 to GLEN, the elements before the last NLEN of the register are 0, the first of
those NLEN is not, and NLEN is the length of the normalised residue. -/
def Obligations.NlenIsNormalisedLength : Prop :=
  ∀ s : State, GlenLegal s →
    s.nlen ≤ s.glen.toNat ∧ (∀ k, k + s.nlen < s.glen.toNat → fileGet s.acc k = 0#5) ∧
      (s.nlen ≠ 0 → fileGet s.acc (s.glen.toNat - s.nlen) ≠ 0#5) ∧ s.residue.length = s.nlen ∧
      s.nlen ≤ 16 ∧ State.reset.nlen = 0

/-! ### HRP feeding and control -/

/-- R79: HHI raises NO_GEN while `GLEN` is 0, and else makes one step with BYTE >> 5. -/
def Obligations.HhiFeedsHighBits : Prop :=
  (∀ byte : Byte, decode (0xB#4 ++ 0#4 ++ byte) = .ok (.hhi byte)) ∧
    (∀ w : Word, w.extractLsb' 12 4 = 0xB#4 → w &&& 0x0F00#16 ≠ 0#16 → IllegalCommand w) ∧
    (∀ (byte : Byte) (s : State), s.glen = 0#5 →
      ∃ t, exec (.hhi byte) s = .next t ∧ RecordsError 5#3 s.echr s t) ∧
    ∀ (byte : Byte) (s : State), s.glen ≠ 0#5 → ∃ t, exec (.hhi byte) s = .next t ∧
      t.acc = srStep s.glen.toNat s.gen (BitVec.ofNat 5 (byte.toNat / 32)) s.acc ∧
      t.res = s.res ∧ t.glen = s.glen ∧ t.gen = s.gen ∧ Completes s t

/-- R80: HLO raises NO_GEN while `GLEN` is 0, and else makes one step with BYTE & 0x1F. -/
def Obligations.HloFeedsLowBits : Prop :=
  (∀ byte : Byte, decode (0xC#4 ++ 0#4 ++ byte) = .ok (.hlo byte)) ∧
    (∀ w : Word, w.extractLsb' 12 4 = 0xC#4 → w &&& 0x0F00#16 ≠ 0#16 → IllegalCommand w) ∧
    (∀ (byte : Byte) (s : State), s.glen = 0#5 →
      ∃ t, exec (.hlo byte) s = .next t ∧ RecordsError 5#3 s.echr s t) ∧
    ∀ (byte : Byte) (s : State), s.glen ≠ 0#5 → ∃ t, exec (.hlo byte) s = .next t ∧
      t.acc = srStep s.glen.toNat s.gen (BitVec.ofNat 5 (byte.toNat % 32)) s.acc ∧
      t.res = s.res ∧ t.glen = s.glen ∧ t.gen = s.gen ∧ Completes s t

/-- R83: NOP clears ERR and CODE and changes nothing else. -/
def Obligations.NopOnlyCompletes : Prop :=
  decode 0x0000 = .ok .nop ∧
    (∀ w : Word, w.extractLsb' 12 4 = 0x0#4 → w &&& 0x0FFE#16 ≠ 0#16 → IllegalCommand w) ∧
    ∀ s : State, ∃ t, exec .nop s = .next t ∧ t.res = s.res ∧ Completes s t ∧ FilesKept s t

/-- R84: SCLR clears ERR, CODE and STK and keeps `ECHR`; an illegal word of its opcode sets STK. -/
def Obligations.SclrClearsSticky : Prop :=
  decode 0x0001 = .ok .sclr ∧
    (∀ w : Word, w.extractLsb' 12 4 = 0x0#4 → w &&& 0x0FFE#16 ≠ 0#16 → IllegalCommand w) ∧
    ∀ s : State, ∃ t, exec .sclr s = .next t ∧ statusErr t.status = false ∧ statusCode t.status = 0#3 ∧
      statusStk t.status = false ∧ statusReserved t.status = statusReserved s.status ∧
      t.echr = s.echr ∧ t.res = s.res ∧ FilesKept s t ∧ t.port = s.port

/-! ### Rules over all commands -/

/-- R86: the code a word leaves in `STATUS` names its cause, for every word in every state; 6 and 7 are never
produced. -/
def Obligations.ErrorCodeNamesItsCause : Prop :=
  ∀ (w : Word) (s t : State), execWord w s = .next t →
    (statusCode t.status = 0#3 ↔ statusErr t.status = false) ∧
    (statusCode t.status = 1#3 ↔
      ∃ b, decode w = .ok (.c2fe b) ∧ b ∉ unitParams.alphabet.toList) ∧
    (∀ b, decode w = .ok (.c2fe b) → statusCode t.status = 1#3 → t.echr = b) ∧
    (statusCode t.status = 2#3 ↔ ∃ src, decode w = .ok (.finv src) ∧ operandA src s = 0#5) ∧
    (statusCode t.status = 3#3 ↔ ∀ c, decode w ≠ .ok c) ∧
    (statusCode t.status = 4#3 ↔
      ∃ len, decode w = .ok (.gset len) ∧ (len.toNat = 0 ∨ 16 < len.toNat)) ∧
    (statusCode t.status = 5#3 ↔
      s.glen = 0#5 ∧ ∃ c, decode w = .ok c ∧ c.mnemonic ∈ ["PSTEP", "HHI", "HLO", "PPAD"]) ∧
    (statusCode t.status).toNat ≤ 5

/-- R87: after a word that raised an error, ERR and STK are 1, `RES`, `GLEN`, `GEN` and `ACC` are as before,
and `ECHR` too unless the error is INVALID_CHAR. -/
def Obligations.ErrorsHaveNoPartialEffect : Prop :=
  ∀ (w : Word) (s t : State), execWord w s = .next t → statusErr t.status = true →
    RecordsError (statusCode t.status) t.echr s t ∧ (statusCode t.status ≠ 1#3 → t.echr = s.echr)

/-- R88: after a word that raised no error, ERR and CODE are 0 and `ECHR` and STK are kept, but that SCLR
clears STK. -/
def Obligations.SuccessKeepsStickyAndEchr : Prop :=
  ∀ (w : Word) (s t : State), execWord w s = .next t → statusErr t.status = false →
    statusCode t.status = 0#3 ∧ t.echr = s.echr ∧
      statusStk t.status = (statusStk s.status && decide (w ≠ 1#16))

/-- R15: only the six named commands write `RES`; five of them leave a zero-extended element, FE2C an alphabet
code, an error nothing; S = 1 reads its low five bits; it resets to 0. -/
def Obligations.ResWriters : Prop :=
  (∀ (c : Instr) (s t : State), exec c s = .next t → t.res ≠ s.res →
      c.mnemonic ∈ ["FADD", "FMUL", "FINV", "C2FE", "PRD", "FE2C"]) ∧
    (∀ (c : Instr) (s t : State), exec c s = .next t → statusErr t.status = false →
      c.mnemonic ∈ ["FADD", "FMUL", "FINV", "C2FE", "PRD"] → t.res.toNat < 32) ∧
    (∀ (src : Src) (s t : State), exec (.fe2c src) s = .next t →
      t.res ∈ unitParams.alphabet.toList) ∧
    (∀ (w : Word) (s t : State), execWord w s = .next t → statusErr t.status = true → t.res = s.res) ∧
    (∀ (a : Fe) (s : State), (operandA (.res a) s).toNat = s.res.toNat % 32 ∧ s.hostRead .res = s.res) ∧
    State.reset.res = 0#8

/-- R18: only GSEL and GSET write `GLEN`, with 13, 6 or a value from 1 to 16, so it stays within 0 to 16; the
host reads it; it resets to 0; the feeding commands raise NO_GEN while it is 0. -/
def Obligations.GlenWriters : Prop :=
  (∀ (c : Instr) (s t : State), exec c s = .next t → t.glen ≠ s.glen →
      (c = .gsel 0#2 ∧ t.glen.toNat = 13) ∨ (c = .gsel 1#2 ∧ t.glen.toNat = 6) ∨
        ∃ len, c = .gset len ∧ t.glen = len ∧ 1 ≤ len.toNat ∧ len.toNat ≤ 16) ∧
    (∀ (c : Instr) (s t : State), exec c s = .next t → GlenLegal s → GlenLegal t) ∧
    (∀ s : State, (s.hostRead .glen).toNat = s.glen.toNat) ∧ State.reset.glen = 0#5 ∧
    ∀ (c : Instr) (s : State), c.mnemonic ∈ ["PSTEP", "HHI", "HLO", "PPAD"] → s.glen = 0#5 →
      ∃ t, exec c s = .next t ∧ RecordsError 5#3 s.echr s t

/-- R21, R22: which commands write the generator file and the accumulator file, and which elements: GWR one
element of `GEN`, GSEL and GSET all of it, the feeding commands only elements of `ACC` below `GLEN`, the
clearing ones all of it. The built-in coefficients are the parameters of log entry 4. -/
def Obligations.FileWriters : Prop :=
  (∀ (c : Instr) (s t : State), exec c s = .next t → t.gen ≠ s.gen →
      c.mnemonic ∈ ["GSEL", "GSET", "GWR"]) ∧
    (∀ (idx : BitVec 4) (v : Fe) (s t : State), exec (.gwr idx v) s = .next t →
      ∀ k < 16, fileGet t.gen k = if k = idx.toNat then v else fileGet s.gen k) ∧
    (∀ s t : State, exec (.gsel 0#2) s = .next t →
      ∀ k < 16, fileGet t.gen k = unitParams.genCodex32.toList.getD k 0#5) ∧
    (∀ s t : State, exec (.gsel 1#2) s = .next t →
      ∀ k < 16, fileGet t.gen k = unitParams.genBech32.toList.getD k 0#5) ∧
    (∀ (len : BitVec 5) (s t : State), exec (.gset len) s = .next t → statusErr t.status = false →
      ∀ k < 16, fileGet t.gen k = 0#5) ∧
    (∀ (c : Instr) (s t : State), exec c s = .next t → t.acc ≠ s.acc →
      c.mnemonic ∈ ["GSEL", "GSET", "PCLR", "PSTEP", "HHI", "HLO", "PPAD"]) ∧
    (∀ (c : Instr) (s t : State), exec c s = .next t → c.mnemonic ∈ ["GSEL", "GSET", "PCLR"] →
      statusErr t.status = false → ∀ k < 16, fileGet t.acc k = 0#5) ∧
    ∀ (c : Instr) (s t : State), exec c s = .next t → c.mnemonic ∈ ["PSTEP", "HHI", "HLO", "PPAD"] →
      ∀ k < 16, s.glen.toNat ≤ k → fileGet t.acc k = fileGet s.acc k

/-- R17: only an INVALID_CHAR error writes `ECHR`, with the byte C2FE rejected, which is no alphabet code; it
resets to 0. -/
def Obligations.EchrWriters : Prop :=
  (∀ (w : Word) (s t : State), execWord w s = .next t → t.echr ≠ s.echr →
      statusCode t.status = 1#3 ∧ ∃ b, decode w = .ok (.c2fe b) ∧ b ∉ unitParams.alphabet.toList ∧
        t.echr = b) ∧
    (∀ (b : Byte) (s : State), b ∉ unitParams.alphabet.toList →
      ∃ t, exec (.c2fe b) s = .next t ∧ statusCode t.status = 1#3 ∧ t.echr = b) ∧
    (∀ s : State, s.hostRead .echr = s.echr) ∧ State.reset.echr = 0#8

/-- R16, R95: over a step, STK goes from 1 to 0 only by SCLR's word or a reset. The port is the model's form:
log entry 1. -/
def Obligations.StickyClearedOnlyBySclrOrReset : Prop :=
  ∀ s t : State, step s = .next t → statusStk s.status = true → statusStk t.status = false →
    ∃ rest, s.port = .command 0x0001#16 :: rest ∨ s.port = .reset :: rest

/-- R25: `GEN[i]` for i >= GLEN cannot be observed: from two states that differ only there, every step leads
to two states that differ only there, and every host read gives the same. -/
def Obligations.HiddenCoefficientsAreUnobservable : Prop :=
  ∀ s t s' : State, SameButHidden s t → step s = .next s' →
    ∃ t', step t = .next t' ∧ SameButHidden s' t' ∧ ∀ r, t'.hostRead r = s'.hostRead r

/-! ### The unit computes the source's functions -/

/-- R45, R68, R69: from every state, the commands of `POLYMOD g, s` leave `polymod(s, g)` in the register, for
both built-in generators and every custom one of 1 to 16 elements, and `NLEN` is the length of its normal
form. -/
def Obligations.PolymodCommandsComputePolymod : Prop :=
  ∀ (choice : GenChoice) (seq : List Fe) (s : State),
    (∀ g, choice = .custom g → 1 ≤ g.length ∧ g.length ≤ 16) →
    ∃ t, runInstrs (pseudoPolymod choice seq) s = .next t ∧
      t.accSeq = polymod seq (generatorOf choice) ∧ t.genSeq = generatorOf choice ∧
      t.glen.toNat = (generatorOf choice).length ∧ AccTailZero t ∧
      t.nlen = (polyNormalize (polymod seq (generatorOf choice))).length ∧
      t.res = s.res ∧ Completes s t

/-- R68: `polymod(s, g)` is a remainder of s by the monic g of R61: with some quotient q of one coefficient
per input element, s = q * g + polymod(s, g), and the remainder has L elements. For L outside 1 to 16 it is
about the model's extension of the function: log entry 13. -/
def Obligations.PolymodIsLongDivision : Prop :=
  ∀ s g : List Fe, (polymod s g).length = g.length ∧
    ∃ q : List Fe, q.length = s.length ∧
      polyAdd (polyMul q (1#5 :: g)) (List.replicate s.length 0#5 ++ polymod s g) =
        List.replicate g.length 0#5 ++ s

/-- R68: division by a monic g has one remainder of L elements, so the equation of the long division
determines `polymod(s, g)`. For L outside 1 to 16: log entry 13. -/
def Obligations.PolymodIsTheOnlyRemainder : Prop :=
  ∀ s g q r : List Fe, q.length = s.length → r.length = g.length →
    polyAdd (polyMul q (1#5 :: g)) (List.replicate s.length 0#5 ++ r) = List.replicate g.length 0#5 ++ s →
    r = polymod s g

/-- R68: `polymod` is linear, and gives all zeros on the empty sequence. For L outside 1 to 16: log entry 13. -/
def Obligations.PolymodIsLinear : Prop :=
  (∀ s s' g : List Fe, s.length = s'.length →
      polymod (List.zipWith feAdd s s') g = List.zipWith feAdd (polymod s g) (polymod s' g)) ∧
    ∀ g : List Fe, polymod [] g = List.replicate g.length 0#5

/-- R75: an all-zero input of any length gives the zero polynomial, and changing one element of an input of
any length changes the normalised residue when the generator's constant term is nonzero, as 16 and 18 of
the built-in generators are (general knowledge, log entry 4). For L outside 1 to 16: log entry 13. -/
def Obligations.SingleSymbolErrorChangesResidue : Prop :=
  (∀ (n : Nat) (g : List Fe), polyNormalize (polymod (List.replicate n 0#5) g) = []) ∧
    (∀ (before after : List Fe) (v v' : Fe) (front : List Fe) (k : Fe), k ≠ 0#5 → v ≠ v' →
      polyNormalize (polymod (before ++ v :: after) (front ++ [k])) ≠
        polyNormalize (polymod (before ++ v' :: after) (front ++ [k]))) ∧
    unitParams.genCodex32.toList.getLast? = some 16#5 ∧ unitParams.genBech32.toList.getLast? = some 18#5

/-- R81: the HRP command sequence leaves `polymod(hrp_expand(h, L), g)` in the register for byte sequences of
any length, from every state, with a generator loaded by it or, after PCLR, already loaded; `NLEN` and
PRD then give `hrp_residue(h, g)`; it has 2m + 4 commands. -/
def Obligations.HrpCommandsComputeHrpResidue : Prop :=
  (∀ (choice : GenChoice) (h : List Byte) (s : State),
      (∀ g, choice = .custom g → 1 ≤ g.length ∧ g.length ≤ 16) →
      ∃ t, runInstrs (pseudoHrpres choice h) s = .next t ∧
        t.accSeq = polymod (hrpExpand h (generatorOf choice).length) (generatorOf choice) ∧
        t.nlen = (hrpResidue h (generatorOf choice)).length ∧
        (∀ idx : BitVec 4, ∃ u, exec (.prd false idx) t = .next u ∧
          u.res = ((hrpResidue h (generatorOf choice)).getD idx.toNat 0#5).setWidth 8) ∧
        t.res = s.res ∧ Completes s t) ∧
    (∀ (h : List Byte) (s : State), s.glen ≠ 0#5 → GlenLegal s →
      ∃ t, runInstrs (.pclr :: hrpFeedCommands h) s = .next t ∧
        t.accSeq = polymod (hrpExpand h s.glen.toNat) s.genSeq ∧
        t.residue = hrpResidue h s.genSeq ∧ t.nlen = (hrpResidue h s.genSeq).length ∧
        (∀ idx : BitVec 4, ∃ u, exec (.prd false idx) t = .next u ∧
          u.res = ((hrpResidue h s.genSeq).getD idx.toNat 0#5).setWidth 8) ∧
        t.res = s.res ∧ Completes s t) ∧
    ∀ h : List Byte, (pseudoHrpres .bech32 h).length = 2 * h.length + 4 ∧
      (pseudoHrpres .codex32 h).length = 2 * h.length + 4 ∧
      (.pclr :: hrpFeedCommands h : List Instr).length = 2 * h.length + 4

/-- R76, R82: the expansion has 2m + 2 + L elements; an HRP residue has at most L, is zero exactly when g
divides the polynomial of the expansion without its zeros, for a g with nonzero constant term, and for
the empty byte sequence and bech32 (log entry 4) it is the value R82 gives. For L outside 1 to 16: log entry 13. -/
def Obligations.HrpResidueCorners : Prop :=
  (∀ (h : List Byte) (len : Nat), (hrpExpand h len).length = 2 * h.length + 2 + len) ∧
    (∀ (h : List Byte) (g : List Fe), (hrpResidue h g).length ≤ g.length) ∧
    (∀ (h : List Byte) (front : List Fe) (k : Fe), k ≠ 0#5 →
      (hrpResidue h (front ++ [k]) = [] ↔ polyNormalize (polymod (hrpExpand h 0) (front ++ [k])) = [])) ∧
    hrpResidue [] unitParams.genBech32.toList = [15#5, 29#5, 15#5, 26#5, 11#5, 6#5]

/-- R74: the caller's two tests agree with each other and with the residue `[1]`; the verdict accepts exactly
when no command failed and the residue is the target's normal form. -/
def Obligations.CallerVerdictTests : Prop :=
  (∀ s : State, GlenLegal s → s.glen ≠ 0#5 →
      ((s.nlen = 1 ∧ ∃ t, exec (.prd false 0#4) s = .next t ∧ t.res = 1#8) ↔ s.residue = [1#5]) ∧
      (s.residue = [1#5] ↔ (∀ k, k + 1 < s.glen.toNat → fileGet s.acc k = 0#5) ∧
        fileGet s.acc (s.glen.toNat - 1) = 1#5)) ∧
    ∀ s : State, bech32Verdict s = true ↔ Clean s ∧ s.residue = [1#5]

/-- R45, R98: `FEED` of an alphabet character feeds its value; `FEED` of any other byte still makes its PSTEP,
with the stale `RES[4:0]`, and leaves ERR 0, STK 1 and the byte in `ECHR`. `LDI a` leaves a in `RES`. -/
def Obligations.FeedHazard : Prop :=
  (∀ (v : Fe) (s : State), s.glen ≠ 0#5 →
      ∃ t, runInstrs (pseudoFeed (charOf unitParams.alphabet v)) s = .next t ∧
        t.acc = srStep s.glen.toNat s.gen v s.acc ∧ t.res = v.setWidth 8 ∧
        t.glen = s.glen ∧ t.gen = s.gen ∧ Completes s t) ∧
    (∀ (c : Byte) (s : State), s.glen ≠ 0#5 → c ∉ unitParams.alphabet.toList →
      ∃ t, runInstrs (pseudoFeed c) s = .next t ∧
        t.acc = srStep s.glen.toNat s.gen (s.res.extractLsb' 0 5) s.acc ∧ t.res = s.res ∧
        t.glen = s.glen ∧ t.gen = s.gen ∧ statusErr t.status = false ∧
        statusStk t.status = true ∧ t.echr = c) ∧
    ∀ (a : Fe) (s : State), ∃ t, runInstrs (pseudoLdi a) s = .next t ∧ t.res = a.setWidth 8 ∧
      Completes s t ∧ FilesKept s t
end

