-- ==== Sys2Proof/Laws/State.lean ====
section
/-!
SUPPORT. One lemma per field of `State` and per update of it, so that no proof unfolds a record update.
Rewrite with them (`simp`) rather than close a goal by `exact` up to unfolding: comparing `s.feed v` with `s`
field by field unfolds the shift register.
-/

namespace Sys2Proof.Machine

/-! ### `State.setResElem` -/

@[simp] theorem State.setResElem_res (s : State) (v : Fe) :
    (s.setResElem v).res = v.setWidth 8 := rfl
@[simp] theorem State.setResElem_status (s : State) (v : Fe) :
    (s.setResElem v).status = s.status := rfl
@[simp] theorem State.setResElem_echr (s : State) (v : Fe) : (s.setResElem v).echr = s.echr := rfl
@[simp] theorem State.setResElem_glen (s : State) (v : Fe) : (s.setResElem v).glen = s.glen := rfl
@[simp] theorem State.setResElem_gen (s : State) (v : Fe) : (s.setResElem v).gen = s.gen := rfl
@[simp] theorem State.setResElem_acc (s : State) (v : Fe) : (s.setResElem v).acc = s.acc := rfl
@[simp] theorem State.setResElem_port (s : State) (v : Fe) : (s.setResElem v).port = s.port := rfl

/-! ### `State.setResByte` -/

@[simp] theorem State.setResByte_res (s : State) (v : Byte) : (s.setResByte v).res = v := rfl
@[simp] theorem State.setResByte_status (s : State) (v : Byte) :
    (s.setResByte v).status = s.status := rfl
@[simp] theorem State.setResByte_echr (s : State) (v : Byte) : (s.setResByte v).echr = s.echr := rfl
@[simp] theorem State.setResByte_glen (s : State) (v : Byte) : (s.setResByte v).glen = s.glen := rfl
@[simp] theorem State.setResByte_gen (s : State) (v : Byte) : (s.setResByte v).gen = s.gen := rfl
@[simp] theorem State.setResByte_acc (s : State) (v : Byte) : (s.setResByte v).acc = s.acc := rfl
@[simp] theorem State.setResByte_port (s : State) (v : Byte) : (s.setResByte v).port = s.port := rfl

/-! ### `State.clearAcc` -/

@[simp] theorem State.clearAcc_res (s : State) : (s.clearAcc).res = s.res := rfl
@[simp] theorem State.clearAcc_status (s : State) : (s.clearAcc).status = s.status := rfl
@[simp] theorem State.clearAcc_echr (s : State) : (s.clearAcc).echr = s.echr := rfl
@[simp] theorem State.clearAcc_glen (s : State) : (s.clearAcc).glen = s.glen := rfl
@[simp] theorem State.clearAcc_gen (s : State) : (s.clearAcc).gen = s.gen := rfl
@[simp] theorem State.clearAcc_acc (s : State) : (s.clearAcc).acc = zeroFile := rfl
@[simp] theorem State.clearAcc_port (s : State) : (s.clearAcc).port = s.port := rfl

/-! ### `State.loadGenerator` -/

@[simp] theorem State.loadGenerator_res (s : State) (len : BitVec 5) (g : List Fe) :
    (s.loadGenerator len g).res = s.res := rfl
@[simp] theorem State.loadGenerator_status (s : State) (len : BitVec 5) (g : List Fe) :
    (s.loadGenerator len g).status = s.status := rfl
@[simp] theorem State.loadGenerator_echr (s : State) (len : BitVec 5) (g : List Fe) :
    (s.loadGenerator len g).echr = s.echr := rfl
@[simp] theorem State.loadGenerator_glen (s : State) (len : BitVec 5) (g : List Fe) :
    (s.loadGenerator len g).glen = len := rfl
@[simp] theorem State.loadGenerator_gen (s : State) (len : BitVec 5) (g : List Fe) :
    (s.loadGenerator len g).gen = fileOfList g := rfl
@[simp] theorem State.loadGenerator_acc (s : State) (len : BitVec 5) (g : List Fe) :
    (s.loadGenerator len g).acc = zeroFile := rfl
@[simp] theorem State.loadGenerator_port (s : State) (len : BitVec 5) (g : List Fe) :
    (s.loadGenerator len g).port = s.port := rfl

/-! ### `State.complete` -/

@[simp] theorem State.complete_res (s : State) : (s.complete).res = s.res := rfl
@[simp] theorem State.complete_status (s : State) :
    (s.complete).status = statusCompleted s.status := rfl
@[simp] theorem State.complete_echr (s : State) : (s.complete).echr = s.echr := rfl
@[simp] theorem State.complete_glen (s : State) : (s.complete).glen = s.glen := rfl
@[simp] theorem State.complete_gen (s : State) : (s.complete).gen = s.gen := rfl
@[simp] theorem State.complete_acc (s : State) : (s.complete).acc = s.acc := rfl
@[simp] theorem State.complete_port (s : State) : (s.complete).port = s.port := rfl

/-! ### `State.raiseError` -/

@[simp] theorem State.raiseError_res (s : State) (e : UnitError) :
    (s.raiseError e).res = s.res := rfl
@[simp] theorem State.raiseError_status (s : State) (e : UnitError) :
    (s.raiseError e).status = statusRaised (errorCode e) s.status := rfl
@[simp] theorem State.raiseError_echr (s : State) (e : UnitError) :
    (s.raiseError e).echr = echrAfter e s.echr := rfl
@[simp] theorem State.raiseError_glen (s : State) (e : UnitError) :
    (s.raiseError e).glen = s.glen := rfl
@[simp] theorem State.raiseError_gen (s : State) (e : UnitError) :
    (s.raiseError e).gen = s.gen := rfl
@[simp] theorem State.raiseError_acc (s : State) (e : UnitError) :
    (s.raiseError e).acc = s.acc := rfl
@[simp] theorem State.raiseError_port (s : State) (e : UnitError) :
    (s.raiseError e).port = s.port := rfl

/-! ### `State.feed` -/

@[simp] theorem State.feed_res (s : State) (v : Fe) : (s.feed v).res = s.res := rfl
@[simp] theorem State.feed_status (s : State) (v : Fe) : (s.feed v).status = s.status := rfl
@[simp] theorem State.feed_echr (s : State) (v : Fe) : (s.feed v).echr = s.echr := rfl
@[simp] theorem State.feed_glen (s : State) (v : Fe) : (s.feed v).glen = s.glen := rfl
@[simp] theorem State.feed_gen (s : State) (v : Fe) : (s.feed v).gen = s.gen := rfl
@[simp] theorem State.feed_acc (s : State) (v : Fe) :
    (s.feed v).acc = srStep s.glen.toNat s.gen v s.acc := rfl
@[simp] theorem State.feed_port (s : State) (v : Fe) : (s.feed v).port = s.port := rfl

/-! ### `State.present` -/

@[simp] theorem State.present_res (s : State) (a : HostAction) : (s.present a).res = s.res := rfl
@[simp] theorem State.present_status (s : State) (a : HostAction) :
    (s.present a).status = s.status := rfl
@[simp] theorem State.present_echr (s : State) (a : HostAction) : (s.present a).echr = s.echr := rfl
@[simp] theorem State.present_glen (s : State) (a : HostAction) : (s.present a).glen = s.glen := rfl
@[simp] theorem State.present_gen (s : State) (a : HostAction) : (s.present a).gen = s.gen := rfl
@[simp] theorem State.present_acc (s : State) (a : HostAction) : (s.present a).acc = s.acc := rfl
@[simp] theorem State.present_port (s : State) (a : HostAction) :
    (s.present a).port = a :: s.port := rfl

/-! ### `State.feedZeros` -/

@[simp] theorem State.feedZeros_res (s : State) (n : Nat) : (s.feedZeros n).res = s.res := by
  induction n generalizing s with
  | zero => rfl
  | succ n ih => exact ih (s.feed 0)

@[simp] theorem State.feedZeros_status (s : State) (n : Nat) : (s.feedZeros n).status = s.status := by
  induction n generalizing s with
  | zero => rfl
  | succ n ih => exact ih (s.feed 0)

@[simp] theorem State.feedZeros_echr (s : State) (n : Nat) : (s.feedZeros n).echr = s.echr := by
  induction n generalizing s with
  | zero => rfl
  | succ n ih => exact ih (s.feed 0)

@[simp] theorem State.feedZeros_glen (s : State) (n : Nat) : (s.feedZeros n).glen = s.glen := by
  induction n generalizing s with
  | zero => rfl
  | succ n ih => exact ih (s.feed 0)

@[simp] theorem State.feedZeros_gen (s : State) (n : Nat) : (s.feedZeros n).gen = s.gen := by
  induction n generalizing s with
  | zero => rfl
  | succ n ih => exact ih (s.feed 0)

@[simp] theorem State.feedZeros_port (s : State) (n : Nat) : (s.feedZeros n).port = s.port := by
  induction n generalizing s with
  | zero => rfl
  | succ n ih => exact ih (s.feed 0)

/-! ### `State.resetUnit` -/

@[simp] theorem State.resetUnit_res (s : State) : s.resetUnit.res = State.reset.res := rfl
@[simp] theorem State.resetUnit_status (s : State) : s.resetUnit.status = State.reset.status := rfl
@[simp] theorem State.resetUnit_echr (s : State) : s.resetUnit.echr = State.reset.echr := rfl
@[simp] theorem State.resetUnit_glen (s : State) : s.resetUnit.glen = State.reset.glen := rfl
@[simp] theorem State.resetUnit_gen (s : State) : s.resetUnit.gen = State.reset.gen := rfl
@[simp] theorem State.resetUnit_acc (s : State) : s.resetUnit.acc = State.reset.acc := rfl
@[simp] theorem State.resetUnit_port (s : State) : s.resetUnit.port = s.port := rfl

end Sys2Proof.Machine
end

