-- ==== Sys2Proof/Laws/Flags.lean ====
section
/-!
SUPPORT. What each status computation leaves in each field of `STATUS` (spec/10_state.md R16).
-/

namespace Sys2Proof.Machine

/-- The fields of a packed status word are the fields it was packed from. -/
@[simp] theorem statusErr_packStatus (r : BitVec 3) (k : Bool) (c : BitVec 3) (e : Bool) :
    statusErr (packStatus r k c e) = e := by
  revert r k c e; decide

@[simp] theorem statusCode_packStatus (r : BitVec 3) (k : Bool) (c : BitVec 3) (e : Bool) :
    statusCode (packStatus r k c e) = c := by
  revert r k c e; decide

@[simp] theorem statusStk_packStatus (r : BitVec 3) (k : Bool) (c : BitVec 3) (e : Bool) :
    statusStk (packStatus r k c e) = k := by
  revert r k c e; decide

@[simp] theorem statusReserved_packStatus (r : BitVec 3) (k : Bool) (c : BitVec 3) (e : Bool) :
    statusReserved (packStatus r k c e) = r := by
  revert r k c e; decide

/-- `complete()` on the fields of `STATUS` (R88). -/
@[simp] theorem statusErr_statusCompleted (w : Byte) : statusErr (statusCompleted w) = false := by
  simp [statusCompleted]

@[simp] theorem statusCode_statusCompleted (w : Byte) : statusCode (statusCompleted w) = 0#3 := by
  simp [statusCompleted]

@[simp] theorem statusStk_statusCompleted (w : Byte) :
    statusStk (statusCompleted w) = statusStk w := by
  simp [statusCompleted]

@[simp] theorem statusReserved_statusCompleted (w : Byte) :
    statusReserved (statusCompleted w) = statusReserved w := by
  simp [statusCompleted]

/-- `complete()` twice is `complete()` once. -/
@[simp] theorem statusCompleted_idem (w : Byte) :
    statusCompleted (statusCompleted w) = statusCompleted w := by
  simp [statusCompleted]

/-- `raise Error` on the fields of `STATUS` (R87). -/
@[simp] theorem statusErr_statusRaised (c : BitVec 3) (w : Byte) :
    statusErr (statusRaised c w) = true := by
  simp [statusRaised]

@[simp] theorem statusCode_statusRaised (c : BitVec 3) (w : Byte) :
    statusCode (statusRaised c w) = c := by
  simp [statusRaised]

@[simp] theorem statusStk_statusRaised (c : BitVec 3) (w : Byte) :
    statusStk (statusRaised c w) = true := by
  simp [statusRaised]

@[simp] theorem statusReserved_statusRaised (c : BitVec 3) (w : Byte) :
    statusReserved (statusRaised c w) = statusReserved w := by
  simp [statusRaised]

/-- `STK <- 0` on the fields of `STATUS` (R84). -/
@[simp] theorem statusStk_statusUnstuck (w : Byte) : statusStk (statusUnstuck w) = false := by
  simp [statusUnstuck]

@[simp] theorem statusReserved_statusUnstuck (w : Byte) :
    statusReserved (statusUnstuck w) = statusReserved w := by
  simp [statusUnstuck]

/-- A status word is its fields. -/
theorem packStatus_fields (w : Byte) :
    packStatus (statusReserved w) (statusStk w) (statusCode w) (statusErr w) = w := by
  revert w; decide

/-- A status word whose reserved bits are 0 is read as it stands (R16). -/
theorem statusRead_eq (w : Byte) (h : statusReserved w = 0#3) : statusRead w = w := by
  rw [statusRead, ← h, packStatus_fields]

end Sys2Proof.Machine
end

