-- ==== Sys2Proof/Laws/Ops.lean ====
section
/-!
SUPPORT. What each shared operation can do, once: the two endings of a command, the feeding commands,
register-file access, and the shift register's elements.
-/

namespace Sys2Proof.Machine

/-! ### Register files -/

/-- Element `k` of a file given element by element. -/
@[simp] theorem fileGet_ofFn (f : Fin 16 → Fe) (k : Nat) :
    fileGet (Vector.ofFn f) k = if h : k < 16 then f ⟨k, h⟩ else 0#5 := by
  unfold fileGet
  split <;> simp

@[simp] theorem fileGet_zeroFile (k : Nat) : fileGet zeroFile k = 0#5 := by
  unfold fileGet zeroFile
  split <;> simp

@[simp] theorem fileGet_fileOfList (g : List Fe) (k : Nat) :
    fileGet (fileOfList g) k = if k < 16 then g.getD k 0#5 else 0#5 := by
  unfold fileOfList
  simp

/-- A written element reads back, and the others are left alone. -/
theorem fileGet_fileSet (f : ElemFile) (k : BitVec 4) (v : Fe) (n : Nat) :
    fileGet (fileSet f k v) n = if n = k.toNat then v else fileGet f n := by
  have hk := k.isLt
  unfold fileGet fileSet
  by_cases hn : n < 16
  · by_cases e : n = k.toNat
    · subst e; simp [hn]
    · have e' : ¬ k.toNat = n := fun h => e h.symm
      simp [hn, e, e']
  · have e : ¬ n = k.toNat := by omega
    simp [hn, e]

/-- Two files with the same elements are one file. -/
theorem file_ext (f g : ElemFile) (h : ∀ k < 16, fileGet f k = fileGet g k) : f = g := by
  ext k hk
  have := h k hk
  simp only [fileGet, hk, dite_true] at this
  rw [this]

/-! ### How a command ends -/

/-- The one next state of a command that completes. -/
theorem finish_eq_next {s t : State} (h : finish s = .next t) : t = s.complete := by
  cases h; rfl

/-- The one next state of a command that fails. -/
theorem fail_eq_next {e : UnitError} {s t : State} (h : fail e s = .next t) : t = s.raiseError e := by
  cases h; rfl

/-- All a feeding command can do: NO_GEN without a generator, its steps with one (R71). -/
theorem feedingCommand_eq_next {s fed t : State} (h : s.feedingCommand fed = .next t) :
    (s.glen = 0#5 ∧ t = s.raiseError .noGen) ∨ (s.glen ≠ 0#5 ∧ t = fed.complete) := by
  unfold State.feedingCommand at h
  split at h
  · exact .inl ⟨‹_›, fail_eq_next h⟩
  · exact .inr ⟨‹_›, finish_eq_next h⟩

/-- `echrAfter` changes `ECHR` only for INVALID_CHAR (R17, R87). -/
theorem echrAfter_eq (e : UnitError) (old : Byte) :
    echrAfter e old = old ∨ ∃ b, e = .invalidChar b ∧ echrAfter e old = b := by
  cases e with
  | invalidChar b => exact .inr ⟨b, rfl, rfl⟩
  | invZero => exact .inl rfl
  | illegalCmd => exact .inl rfl
  | badLen => exact .inl rfl
  | noGen => exact .inl rfl

/-- The codes of R86 are 1 to 5. -/
theorem errorCode_range (e : UnitError) : 1 ≤ (errorCode e).toNat ∧ (errorCode e).toNat ≤ 5 := by
  cases e <;> simp [errorCode]

/-- All C2FE can do over an alphabet (R58). -/
theorem c2feWith_eq_next {table : Vector Byte 32} {b : Byte} {s t : State}
    (h : c2feWith table b s = .next t) :
    (elemOf table b = none ∧ t = s.raiseError (.invalidChar b)) ∨
      ∃ v, elemOf table b = some v ∧ t = (s.setResElem v).complete := by
  unfold c2feWith at h
  split at h
  · exact .inl ⟨‹_›, fail_eq_next h⟩
  · exact .inr ⟨_, ‹_›, finish_eq_next h⟩

/-- All GSEL can do over given generators (R64). -/
theorem gselWith_eq_next {p : Params} {sel : BitVec 2} {s t : State} (h : gselWith p sel s = .next t) :
    (sel = 0#2 ∧ t = (s.loadGenerator 13#5 p.genCodex32.toList).complete) ∨
      (sel = 1#2 ∧ t = (s.loadGenerator 6#5 p.genBech32.toList).complete) ∨
      (2 ≤ sel.toNat ∧ t = s.raiseError .illegalCmd) := by
  unfold gselWith at h
  split at h
  · exact .inl ⟨‹_›, finish_eq_next h⟩
  · split at h
    · exact .inr (.inl ⟨‹_›, finish_eq_next h⟩)
    · refine .inr (.inr ⟨?_, fail_eq_next h⟩)
      rename_i h0 h1
      revert h0 h1; revert sel; decide

/-! ### The shift register -/

/-- Element `k` of the shifted register (R67). -/
theorem fileGet_shiftIn (len : Nat) (v : Fe) (acc : ElemFile) (k : Nat) (hk : k < 16) :
    fileGet (shiftIn len v acc) k =
      if k + 1 < len then fileGet acc (k + 1) else if k + 1 = len then v else fileGet acc k := by
  have : acc[k] = fileGet acc k := by simp [fileGet, hk]
  simp [shiftIn, hk, this]

/-- Element `k` after one step (R67). -/
theorem fileGet_srStep (len : Nat) (gen : ElemFile) (v : Fe) (acc : ElemFile) (k : Nat) (hk : k < 16) :
    fileGet (srStep len gen v acc) k =
      if k < len then
        feAdd (if k + 1 < len then fileGet acc (k + 1) else v) (feMul (fileGet acc 0) (fileGet gen k))
      else fileGet acc k := by
  have hg : gen[k] = fileGet gen k := by simp [fileGet, hk]
  have hs : (shiftIn len v acc)[k] = fileGet (shiftIn len v acc) k := by simp [fileGet, hk]
  by_cases h : k < len
  · simp only [srStep, addScaled, fileGet_ofFn, hk, h, dite_true, if_true, Fin.getElem_fin, hg, hs,
      fileGet_shiftIn len v acc k hk]
    by_cases h1 : k + 1 < len
    · simp [h1]
    · simp [show k + 1 = len by omega]
  · simp only [srStep, addScaled, fileGet_ofFn, hk, h, dite_true, if_false, Fin.getElem_fin, hs,
      fileGet_shiftIn len v acc k hk]
    simp [show ¬ k + 1 < len by omega, show ¬ k + 1 = len by omega]

end Sys2Proof.Machine
end

