-- ==== Sys2Proof/Laws/Decode.lean ====
section
/-!
SUPPORT. What each field of spec/30_encoding.md R37 reads from a word laid out by each format, and that
such a word has no reserved bit set (R41); and all the decoder can answer (R43).
-/

namespace Sys2Proof

/-! ### The decoder -/

/-- A word with no reserved bit set and no illegal selector is its opcode's command (R43). -/
theorem decode_eq_ok {w : Word} {fmt : Format} {build : Word → Instr}
    (hm : opcodeMap (opField w).toNat = some (fmt, build)) (hr : w &&& reservedMask fmt = 0#16)
    (hs : opField w = 0x6#4 → w.getLsbD 1 = false) : decode w = .ok (build w) := by
  have hs' : ¬ (opField w = 0x6#4 ∧ w.getLsbD 1 = true) :=
    fun h => absurd h.2 (by rw [hs h.1]; decide)
  simp only [decode, hm]
  rw [if_neg (not_not.mpr hr), if_neg hs']

/-- A word with a reserved bit of its opcode's format set is no command (R41). -/
theorem decode_eq_reservedBits {w : Word} {fmt : Format} {build : Word → Instr}
    (hm : opcodeMap (opField w).toNat = some (fmt, build)) (hr : w &&& reservedMask fmt ≠ 0#16) :
    decode w = .error (.reservedBits fmt) := by
  simp only [decode, hm]
  rw [if_pos hr]

/-- All a word the decoder accepts can be (R43). -/
theorem decode_ok_cases {w : Word} {c : Instr} (h : decode w = .ok c) :
    ∃ fmt build, opcodeMap (opField w).toNat = some (fmt, build) ∧
      w &&& reservedMask fmt = 0#16 ∧ (opField w = 0x6#4 → w.getLsbD 1 = false) ∧ c = build w := by
  unfold decode at h
  split at h
  · cases h
  · rename_i fmt build hm
    split at h
    · cases h
    · split at h
      · cases h
      · rename_i hr hs
        cases h
        refine ⟨fmt, build, hm, by simpa using hr, fun h6 => ?_, rfl⟩
        cases hb : w.getLsbD 1 with
        | false => rfl
        | true => exact absurd ⟨h6, hb⟩ hs

/-! ### Format R2 -/

theorem opField_r2 (op : BitVec 4) (s : BitVec 1) (a b : Fe) :
    opField (op ++ s ++ 0#1 ++ a ++ b) = op := by
  ext k hk
  simp only [opField, BitVec.getElem_extractLsb', BitVec.getLsbD_append]
  interval_cases k <;> simp

theorem aFieldR2_r2 (op : BitVec 4) (s : BitVec 1) (a b : Fe) :
    aFieldR2 (op ++ s ++ 0#1 ++ a ++ b) = a := by
  ext k hk
  simp only [aFieldR2, BitVec.getElem_extractLsb', BitVec.getLsbD_append]
  interval_cases k <;> simp

theorem lowField_r2 (op : BitVec 4) (s : BitVec 1) (a b : Fe) :
    lowField (op ++ s ++ 0#1 ++ a ++ b) = b := by
  ext k hk
  simp only [lowField, BitVec.getElem_extractLsb', BitVec.getLsbD_append]
  interval_cases k <;> simp

theorem sField_r2 (op : BitVec 4) (s : BitVec 1) (a b : Fe) :
    sField (op ++ s ++ 0#1 ++ a ++ b) = s.getLsbD 0 := by
  simp only [sField, BitVec.getLsbD_append]
  simp

theorem reserved_r2 (op : BitVec 4) (s : BitVec 1) (a b : Fe) :
    (op ++ s ++ 0#1 ++ a ++ b : Word) &&& reservedMask .r2 = 0#16 := by
  apply BitVec.eq_of_getLsbD_eq
  intro k hk
  simp only [reservedMask, BitVec.getLsbD_and, BitVec.getLsbD_append]
  interval_cases k <;> simp

/-! ### Format R1 -/

theorem opField_r1 (op : BitVec 4) (s : BitVec 1) (a : Fe) :
    opField (op ++ s ++ 0#6 ++ a) = op := by
  ext k hk
  simp only [opField, BitVec.getElem_extractLsb', BitVec.getLsbD_append]
  interval_cases k <;> simp

theorem lowField_r1 (op : BitVec 4) (s : BitVec 1) (a : Fe) :
    lowField (op ++ s ++ 0#6 ++ a) = a := by
  ext k hk
  simp only [lowField, BitVec.getElem_extractLsb', BitVec.getLsbD_append]
  interval_cases k <;> simp

theorem sField_r1 (op : BitVec 4) (s : BitVec 1) (a : Fe) :
    sField (op ++ s ++ 0#6 ++ a) = s.getLsbD 0 := by
  simp only [sField, BitVec.getLsbD_append]
  simp

theorem reserved_r1 (op : BitVec 4) (s : BitVec 1) (a : Fe) :
    (op ++ s ++ 0#6 ++ a : Word) &&& reservedMask .r1 = 0#16 := by
  apply BitVec.eq_of_getLsbD_eq
  intro k hk
  simp only [reservedMask, BitVec.getLsbD_and, BitVec.getLsbD_append]
  interval_cases k <;> simp

/-! ### Format B8 -/

theorem opField_b8 (op : BitVec 4) (byte : Byte) :
    opField (op ++ 0#4 ++ byte) = op := by
  ext k hk
  simp only [opField, BitVec.getElem_extractLsb', BitVec.getLsbD_append]
  interval_cases k <;> simp

theorem byteField_b8 (op : BitVec 4) (byte : Byte) :
    byteField (op ++ 0#4 ++ byte) = byte := by
  ext k hk
  simp only [byteField, BitVec.getElem_extractLsb', BitVec.getLsbD_append]
  interval_cases k <;> simp

theorem reserved_b8 (op : BitVec 4) (byte : Byte) :
    (op ++ 0#4 ++ byte : Word) &&& reservedMask .b8 = 0#16 := by
  apply BitVec.eq_of_getLsbD_eq
  intro k hk
  simp only [reservedMask, BitVec.getLsbD_and, BitVec.getLsbD_append]
  interval_cases k <;> simp

/-! ### Format G -/

theorem opField_g (op : BitVec 4) (sel : BitVec 2) :
    opField (op ++ 0#10 ++ sel) = op := by
  ext k hk
  simp only [opField, BitVec.getElem_extractLsb', BitVec.getLsbD_append]
  interval_cases k <;> simp

theorem selField_g (op : BitVec 4) (sel : BitVec 2) :
    selField (op ++ 0#10 ++ sel) = sel := by
  ext k hk
  simp only [selField, BitVec.getElem_extractLsb', BitVec.getLsbD_append]
  interval_cases k <;> simp

/-- `cmd[1]` is the high bit of SEL (R43). -/
theorem selHigh_g (op : BitVec 4) (sel : BitVec 2) :
    (op ++ 0#10 ++ sel : Word).getLsbD 1 = sel.getLsbD 1 := by
  simp only [BitVec.getLsbD_append]
  simp

theorem reserved_g (op : BitVec 4) (sel : BitVec 2) :
    (op ++ 0#10 ++ sel : Word) &&& reservedMask .g = 0#16 := by
  apply BitVec.eq_of_getLsbD_eq
  intro k hk
  simp only [reservedMask, BitVec.getLsbD_and, BitVec.getLsbD_append]
  interval_cases k <;> simp

/-! ### Format L -/

theorem opField_l (op : BitVec 4) (len : BitVec 5) :
    opField (op ++ 0#7 ++ len) = op := by
  ext k hk
  simp only [opField, BitVec.getElem_extractLsb', BitVec.getLsbD_append]
  interval_cases k <;> simp

theorem lowField_l (op : BitVec 4) (len : BitVec 5) :
    lowField (op ++ 0#7 ++ len) = len := by
  ext k hk
  simp only [lowField, BitVec.getElem_extractLsb', BitVec.getLsbD_append]
  interval_cases k <;> simp

theorem reserved_l (op : BitVec 4) (len : BitVec 5) :
    (op ++ 0#7 ++ len : Word) &&& reservedMask .l = 0#16 := by
  apply BitVec.eq_of_getLsbD_eq
  intro k hk
  simp only [reservedMask, BitVec.getLsbD_and, BitVec.getLsbD_append]
  interval_cases k <;> simp

/-! ### Format W -/

theorem opField_w (op : BitVec 4) (idx : BitVec 4) (v : Fe) :
    opField (op ++ 0#3 ++ idx ++ v) = op := by
  ext k hk
  simp only [opField, BitVec.getElem_extractLsb', BitVec.getLsbD_append]
  interval_cases k <;> simp

theorem idxFieldW_w (op : BitVec 4) (idx : BitVec 4) (v : Fe) :
    idxFieldW (op ++ 0#3 ++ idx ++ v) = idx := by
  ext k hk
  simp only [idxFieldW, BitVec.getElem_extractLsb', BitVec.getLsbD_append]
  interval_cases k <;> simp

theorem lowField_w (op : BitVec 4) (idx : BitVec 4) (v : Fe) :
    lowField (op ++ 0#3 ++ idx ++ v) = v := by
  ext k hk
  simp only [lowField, BitVec.getElem_extractLsb', BitVec.getLsbD_append]
  interval_cases k <;> simp

theorem reserved_w (op : BitVec 4) (idx : BitVec 4) (v : Fe) :
    (op ++ 0#3 ++ idx ++ v : Word) &&& reservedMask .w = 0#16 := by
  apply BitVec.eq_of_getLsbD_eq
  intro k hk
  simp only [reservedMask, BitVec.getLsbD_and, BitVec.getLsbD_append]
  interval_cases k <;> simp

/-! ### Format RD -/

theorem opField_rd (op : BitVec 4) (raw : Bool) (idx : BitVec 4) :
    opField (op ++ 0#7 ++ BitVec.ofBool raw ++ idx) = op := by
  ext k hk
  simp only [opField, BitVec.getElem_extractLsb', BitVec.getLsbD_append]
  interval_cases k <;> simp

theorem idxFieldRd_rd (op : BitVec 4) (raw : Bool) (idx : BitVec 4) :
    idxFieldRd (op ++ 0#7 ++ BitVec.ofBool raw ++ idx) = idx := by
  ext k hk
  simp only [idxFieldRd, BitVec.getElem_extractLsb', BitVec.getLsbD_append]
  interval_cases k <;> simp

theorem rawField_rd (op : BitVec 4) (raw : Bool) (idx : BitVec 4) :
    rawField (op ++ 0#7 ++ BitVec.ofBool raw ++ idx) = raw := by
  simp only [rawField, BitVec.getLsbD_append]
  simp

theorem reserved_rd (op : BitVec 4) (raw : Bool) (idx : BitVec 4) :
    (op ++ 0#7 ++ BitVec.ofBool raw ++ idx : Word) &&& reservedMask .rd = 0#16 := by
  apply BitVec.eq_of_getLsbD_eq
  intro k hk
  simp only [reservedMask, BitVec.getLsbD_and, BitVec.getLsbD_append]
  interval_cases k <;> simp

/-! ### Format N0 -/

theorem opField_n0 (op : BitVec 4) (c : BitVec 1) :
    opField (op ++ 0#11 ++ c) = op := by
  ext k hk
  simp only [opField, BitVec.getElem_extractLsb', BitVec.getLsbD_append]
  interval_cases k <;> simp

theorem cBit_n0 (op : BitVec 4) (c : BitVec 1) :
    (op ++ 0#11 ++ c : Word).getLsbD 0 = c.getLsbD 0 := by
  simp only [BitVec.getLsbD_append]
  simp

theorem reserved_n0 (op : BitVec 4) (c : BitVec 1) :
    (op ++ 0#11 ++ c : Word) &&& reservedMask .n0 = 0#16 := by
  apply BitVec.eq_of_getLsbD_eq
  intro k hk
  simp only [reservedMask, BitVec.getLsbD_and, BitVec.getLsbD_append]
  interval_cases k <;> simp

/-! ### Format N -/

theorem opField_n (op : BitVec 4) :
    opField (op ++ 0#12) = op := by
  ext k hk
  simp only [opField, BitVec.getElem_extractLsb', BitVec.getLsbD_append]
  interval_cases k <;> simp

theorem reserved_n (op : BitVec 4) :
    (op ++ 0#12 : Word) &&& reservedMask .n = 0#16 := by
  apply BitVec.eq_of_getLsbD_eq
  intro k hk
  simp only [reservedMask, BitVec.getLsbD_and, BitVec.getLsbD_append]
  interval_cases k <;> simp

end Sys2Proof
end

