-- ==== Sys2Proof/Laws/Exec.lean ====
section
/-!
SUPPORT. All a command and a word can do, once (`exec_effect`, `execWord_effect`): every claim over all
commands is a case analysis of these.
-/

namespace Sys2Proof.Machine

/-- The state- or operand-dependent error a command can raise, and when (spec/60_exceptions.md R86, R89). -/
inductive ErrorCause : Instr → State → UnitError → Prop where
  | invalidChar {b : Byte} {s : State} (h : elemOf unitParams.alphabet b = none) :
      ErrorCause (.c2fe b) s (.invalidChar b)
  | invZero {src : Src} {s : State} (h : operandA src s = 0#5) : ErrorCause (.finv src) s .invZero
  | badSelector {sel : BitVec 2} {s : State} (h : 2 ≤ sel.toNat) :
      ErrorCause (.gsel sel) s .illegalCmd
  | badLen {len : BitVec 5} {s : State} (h : len.toNat = 0 ∨ 16 < len.toNat) :
      ErrorCause (.gset len) s .badLen
  | noGen {c : Instr} {s : State} (h : s.glen = 0#5)
      (hc : c.mnemonic ∈ ["PSTEP", "HHI", "HLO", "PPAD"]) : ErrorCause c s .noGen

/-- The next state of each command: an error recorded, or its own effect completed. -/
inductive ExecEffect : Instr → State → State → Prop where
  | error {c : Instr} {s : State} {e : UnitError} (h : ErrorCause c s e) :
      ExecEffect c s (s.raiseError e)
  | nop {s : State} : ExecEffect .nop s s.complete
  | sclr {s : State} :
      ExecEffect .sclr s ({ s with status := statusUnstuck s.status } : State).complete
  | fadd {src : Src} {b : Fe} {s : State} :
      ExecEffect (.fadd src b) s (s.setResElem (feAdd (operandA src s) b)).complete
  | fmul {src : Src} {b : Fe} {s : State} :
      ExecEffect (.fmul src b) s (s.setResElem (feMul (operandA src s) b)).complete
  | finv {src : Src} {s : State} (h : operandA src s ≠ 0#5) :
      ExecEffect (.finv src) s (s.setResElem (feInv (operandA src s))).complete
  | c2fe {b : Byte} {v : Fe} {s : State} (h : elemOf unitParams.alphabet b = some v) :
      ExecEffect (.c2fe b) s (s.setResElem v).complete
  | fe2c {src : Src} {s : State} :
      ExecEffect (.fe2c src) s
        (s.setResByte (charOf unitParams.alphabet (operandA src s))).complete
  | gselCodex32 {s : State} :
      ExecEffect (.gsel 0#2) s (s.loadGenerator 13#5 unitParams.genCodex32.toList).complete
  | gselBech32 {s : State} :
      ExecEffect (.gsel 1#2) s (s.loadGenerator 6#5 unitParams.genBech32.toList).complete
  | gset {len : BitVec 5} {s : State} (h1 : 1 ≤ len.toNat) (h16 : len.toNat ≤ 16) :
      ExecEffect (.gset len) s (s.loadGenerator len []).complete
  | gwr {idx : BitVec 4} {v : Fe} {s : State} :
      ExecEffect (.gwr idx v) s ({ s with gen := fileSet s.gen idx v } : State).complete
  | pclr {s : State} : ExecEffect .pclr s s.clearAcc.complete
  | pstep {src : Src} {s : State} (h : s.glen ≠ 0#5) :
      ExecEffect (.pstep src) s (s.feed (operandA src s)).complete
  | hhi {b : Byte} {s : State} (h : s.glen ≠ 0#5) :
      ExecEffect (.hhi b) s (s.feed (hrpHigh b)).complete
  | hlo {b : Byte} {s : State} (h : s.glen ≠ 0#5) :
      ExecEffect (.hlo b) s (s.feed (hrpLow b)).complete
  | ppad {s : State} (h : s.glen ≠ 0#5) :
      ExecEffect .ppad s (s.feedZeros s.glen.toNat).complete
  | prd {raw : Bool} {idx : BitVec 4} {s : State} :
      ExecEffect (.prd raw idx) s
        (s.setResElem (if raw then s.rawElem idx.toNat else s.normElem idx.toNat)).complete

/-- The lengths GSET refuses (R65). -/
theorem gset_refuses_iff (len : BitVec 5) :
    (len = 0#5 ∨ Config.lmax < len.toNat) ↔ (len.toNat = 0 ∨ 16 < len.toNat) := by
  revert len; decide

/-- All a command can do: if it answers a next state, it is one of these. -/
theorem exec_effect {c : Instr} {s t : State} (h : exec c s = .next t) : ExecEffect c s t := by
  cases c with
  | nop => rw [finish_eq_next h]; exact .nop
  | sclr => rw [finish_eq_next h]; exact .sclr
  | fadd src b => rw [finish_eq_next h]; exact .fadd
  | fmul src b => rw [finish_eq_next h]; exact .fmul
  | finv src =>
    simp only [exec, execFinv] at h
    split at h
    · rw [fail_eq_next h]; exact .error (.invZero ‹_›)
    · rw [finish_eq_next h]; exact .finv ‹_›
  | c2fe b =>
    rcases c2feWith_eq_next h with ⟨h1, rfl⟩ | ⟨v, h1, rfl⟩
    · exact .error (.invalidChar h1)
    · exact .c2fe h1
  | fe2c src => rw [finish_eq_next h]; exact .fe2c
  | gsel sel =>
    rcases gselWith_eq_next h with ⟨rfl, rfl⟩ | ⟨rfl, rfl⟩ | ⟨h1, rfl⟩
    · exact .gselCodex32
    · exact .gselBech32
    · exact .error (.badSelector h1)
  | gset len =>
    simp only [exec, execGset] at h
    split at h
    · rw [fail_eq_next h]; exact .error (.badLen ((gset_refuses_iff len).mp ‹_›))
    · rename_i hl
      rw [gset_refuses_iff] at hl
      rw [finish_eq_next h]; exact .gset (by omega) (by omega)
  | gwr idx v => rw [finish_eq_next h]; exact .gwr
  | pclr => rw [finish_eq_next h]; exact .pclr
  | pstep src =>
    rcases feedingCommand_eq_next h with ⟨h1, rfl⟩ | ⟨h1, rfl⟩
    · exact .error (.noGen h1 (by simp [Instr.mnemonic]))
    · exact .pstep h1
  | hhi b =>
    rcases feedingCommand_eq_next h with ⟨h1, rfl⟩ | ⟨h1, rfl⟩
    · exact .error (.noGen h1 (by simp [Instr.mnemonic]))
    · exact .hhi h1
  | hlo b =>
    rcases feedingCommand_eq_next h with ⟨h1, rfl⟩ | ⟨h1, rfl⟩
    · exact .error (.noGen h1 (by simp [Instr.mnemonic]))
    · exact .hlo h1
  | ppad =>
    rcases feedingCommand_eq_next h with ⟨h1, rfl⟩ | ⟨h1, rfl⟩
    · exact .error (.noGen h1 (by simp [Instr.mnemonic]))
    · exact .ppad h1
  | prd raw idx => rw [finish_eq_next h]; exact .prd

/-- All a word can do: its command's effect, or ILLEGAL_CMD for a word that is no command. -/
theorem execWord_effect {w : Word} {s t : State} (h : execWord w s = .next t) :
    (∃ c, decode w = .ok c ∧ ExecEffect c s t) ∨
      ((∀ c, decode w ≠ .ok c) ∧ t = s.raiseError .illegalCmd) := by
  unfold execWord at h
  split at h
  · exact .inl ⟨_, ‹_›, exec_effect h⟩
  · rename_i e he
    refine .inr ⟨fun c hc => ?_, fail_eq_next h⟩
    rw [he] at hc
    cases hc

/-- All a step can do: wait, execute a word, answer a read, or reset. -/
theorem step_cases {s t : State} (h : step s = .next t) :
    (s.port = [] ∧ t = s) ∨
      (∃ w rest, s.port = .command w :: rest ∧ execWord w { s with port := rest } = .next t) ∨
      (∃ r rest, s.port = .read r :: rest ∧ t = { s with port := rest }) ∨
      ∃ rest, s.port = .reset :: rest ∧ t = { State.reset with port := rest } := by
  unfold step stepOnce State.takeAction at h
  cases hp : s.port with
  | nil =>
    rw [hp] at h
    cases h
    exact .inl ⟨rfl, rfl⟩
  | cons a rest =>
    rw [hp] at h
    cases a with
    | command w => exact .inr (.inl ⟨w, rest, rfl, h⟩)
    | read r => cases h; exact .inr (.inr (.inl ⟨r, rest, rfl, rfl⟩))
    | reset => cases h; exact .inr (.inr (.inr ⟨rest, rfl, rfl⟩))

end Sys2Proof.Machine
end

