-- ==== Sys2Proof/Laws/PerInstr.lean ====
section
/-!
SUPPORT. Statements per command. `RowMatch`: the word of a well-formed command is the opcode table's row of
its mnemonic (spec/30_encoding.md R40, spec/opcode_table.json).
-/

namespace Sys2Proof.Laws.RowMatch

/-- The command's word has the fixed bits of the table row of its mnemonic. -/
def Statement (c : Instr) : Prop :=
  c.wellFormed = true →
    ∃ row ∈ opcodeTable, row.mnemonic = c.mnemonic ∧ encode c &&& row.mask = row.bits

theorem nop : Statement .nop := by
  intro _
  exact ⟨⟨"NOP", 0x0000, 0xFFFF⟩, by decide, rfl, by decide⟩

theorem sclr : Statement .sclr := by
  intro _
  exact ⟨⟨"SCLR", 0x0001, 0xFFFF⟩, by decide, rfl, by decide⟩

theorem fadd (src : Src) (b : Fe) : Statement (.fadd src b) := by
  intro _
  refine ⟨⟨"FADD", 0x1000, 0xF400⟩, by decide, rfl, ?_⟩
  apply BitVec.eq_of_getLsbD_eq
  intro k hk
  simp only [encode, BitVec.getLsbD_and, BitVec.getLsbD_append]
  interval_cases k <;> simp

theorem fmul (src : Src) (b : Fe) : Statement (.fmul src b) := by
  intro _
  refine ⟨⟨"FMUL", 0x2000, 0xF400⟩, by decide, rfl, ?_⟩
  apply BitVec.eq_of_getLsbD_eq
  intro k hk
  simp only [encode, BitVec.getLsbD_and, BitVec.getLsbD_append]
  interval_cases k <;> simp

theorem finv (src : Src) : Statement (.finv src) := by
  intro _
  refine ⟨⟨"FINV", 0x3000, 0xF7E0⟩, by decide, rfl, ?_⟩
  apply BitVec.eq_of_getLsbD_eq
  intro k hk
  simp only [encode, BitVec.getLsbD_and, BitVec.getLsbD_append]
  interval_cases k <;> simp

theorem c2fe (byte : Byte) : Statement (.c2fe byte) := by
  intro _
  refine ⟨⟨"C2FE", 0x4000, 0xFF00⟩, by decide, rfl, ?_⟩
  apply BitVec.eq_of_getLsbD_eq
  intro k hk
  simp only [encode, BitVec.getLsbD_and, BitVec.getLsbD_append]
  interval_cases k <;> simp

theorem fe2c (src : Src) : Statement (.fe2c src) := by
  intro _
  refine ⟨⟨"FE2C", 0x5000, 0xF7E0⟩, by decide, rfl, ?_⟩
  apply BitVec.eq_of_getLsbD_eq
  intro k hk
  simp only [encode, BitVec.getLsbD_and, BitVec.getLsbD_append]
  interval_cases k <;> simp

theorem gsel (sel : BitVec 2) : Statement (.gsel sel) := by
  revert sel; unfold Statement; decide

theorem gset (len : BitVec 5) : Statement (.gset len) := by
  intro _
  refine ⟨⟨"GSET", 0x7000, 0xFFE0⟩, by decide, rfl, ?_⟩
  apply BitVec.eq_of_getLsbD_eq
  intro k hk
  simp only [encode, BitVec.getLsbD_and, BitVec.getLsbD_append]
  interval_cases k <;> simp

theorem gwr (idx : BitVec 4) (v : Fe) : Statement (.gwr idx v) := by
  intro _
  refine ⟨⟨"GWR", 0x8000, 0xFE00⟩, by decide, rfl, ?_⟩
  apply BitVec.eq_of_getLsbD_eq
  intro k hk
  simp only [encode, BitVec.getLsbD_and, BitVec.getLsbD_append]
  interval_cases k <;> simp

theorem pclr : Statement .pclr := by
  intro _
  exact ⟨⟨"PCLR", 0x9000, 0xFFFF⟩, by decide, rfl, by decide⟩

theorem pstep (src : Src) : Statement (.pstep src) := by
  intro _
  refine ⟨⟨"PSTEP", 0xA000, 0xF7E0⟩, by decide, rfl, ?_⟩
  apply BitVec.eq_of_getLsbD_eq
  intro k hk
  simp only [encode, BitVec.getLsbD_and, BitVec.getLsbD_append]
  interval_cases k <;> simp

theorem hhi (byte : Byte) : Statement (.hhi byte) := by
  intro _
  refine ⟨⟨"HHI", 0xB000, 0xFF00⟩, by decide, rfl, ?_⟩
  apply BitVec.eq_of_getLsbD_eq
  intro k hk
  simp only [encode, BitVec.getLsbD_and, BitVec.getLsbD_append]
  interval_cases k <;> simp

theorem hlo (byte : Byte) : Statement (.hlo byte) := by
  intro _
  refine ⟨⟨"HLO", 0xC000, 0xFF00⟩, by decide, rfl, ?_⟩
  apply BitVec.eq_of_getLsbD_eq
  intro k hk
  simp only [encode, BitVec.getLsbD_and, BitVec.getLsbD_append]
  interval_cases k <;> simp

theorem ppad : Statement .ppad := by
  intro _
  exact ⟨⟨"PPAD", 0xD000, 0xFFFF⟩, by decide, rfl, by decide⟩

theorem prd (raw : Bool) (idx : BitVec 4) : Statement (.prd raw idx) := by
  intro _
  refine ⟨⟨"PRD", 0xE000, 0xFFE0⟩, by decide, rfl, ?_⟩
  apply BitVec.eq_of_getLsbD_eq
  intro k hk
  simp only [encode, BitVec.getLsbD_and, BitVec.getLsbD_append]
  interval_cases k <;> simp

end Sys2Proof.Laws.RowMatch
end

