-- ==== Sys2Proof/Laws/Polymod.lean ====
section
/-!
SUPPORT. The unit's register file as a sequence: what one step and a cleared file are there
(spec/43_polymod.md R67, R68), and the length of the normalised residue (R23, R69).
-/

namespace Sys2Proof.Machine

/-- The first `len` elements of a file, by index. -/
theorem take_file (f : ElemFile) (len : Nat) (h : len ≤ 16) :
    f.toList.take len = List.ofFn fun k : Fin len => fileGet f k.val := by
  apply List.ext_getElem
  · simp; omega
  · intro n h1 h2
    have hn : n < 16 := by simp at h1; omega
    simp [fileGet, hn]

/-- A cleared file is all zeros. -/
theorem take_zeroFile (len : Nat) (h : len ≤ 16) :
    zeroFile.toList.take len = List.replicate len 0#5 := by
  rw [zeroFile, Vector.toList_replicate, List.take_replicate, Nat.min_eq_left h]

/-- A file loaded from a list begins with it. -/
theorem take_fileOfList (g : List Fe) (h : g.length ≤ 16) :
    (fileOfList g).toList.take g.length = g := by
  rw [take_file _ _ h]
  apply List.ext_getElem
  · simp
  · intro n h1 h2
    have hn : n < 16 := by omega
    simp [hn]

/-- One step of a sequence register keeps its length. -/
theorem length_polyStep (g p : List Fe) (v : Fe) (h : p.length = g.length) :
    (polyStep g p v).length = g.length := by
  cases p with
  | nil => simpa [polyStep] using h
  | cons c rest => simp [polyStep] at h ⊢; omega

/-- Element `k` of a stepped sequence (R67). -/
theorem getElem_polyStep (g rest : List Fe) (c v : Fe) (h : rest.length + 1 = g.length) (k : Nat)
    (hk : k < g.length) :
    (polyStep g (c :: rest) v)[k]'(by rw [length_polyStep g (c :: rest) v h]; exact hk) =
      feAdd (if hr : k < rest.length then rest[k] else v) (feMul c g[k]) := by
  simp only [polyStep, List.getElem_zipWith]
  congr 1
  by_cases hr : k < rest.length
  · rw [dif_pos hr, List.getElem_append_left hr]
  · have : k = rest.length := by omega
    subst this
    simp

/-- One step of the unit's register is one step of the sequence it holds (R67). -/
theorem take_srStep (len : Nat) (gen acc : ElemFile) (v : Fe) (h : len ≤ 16) :
    (srStep len gen v acc).toList.take len =
      polyStep (gen.toList.take len) (acc.toList.take len) v := by
  rcases Nat.eq_zero_or_pos len with rfl | hpos
  · simp [polyStep]
  · have hl : ∀ f : ElemFile, (f.toList.take len).length = len := fun f => by simp; omega
    have hg : ∀ (f : ElemFile) (k : Nat) (hk : k < (f.toList.take len).length),
        (f.toList.take len)[k] = fileGet f k := by
      intro f k hk
      have : k < 16 := by rw [hl] at hk; omega
      simp [fileGet, this]
    obtain ⟨c, rest, hp⟩ : ∃ c rest, acc.toList.take len = c :: rest :=
      List.exists_cons_of_ne_nil (by intro h0; have := hl acc; rw [h0] at this; simp at this; omega)
    have hrest : rest.length + 1 = len := by rw [← hl acc, hp]; rfl
    have hc : c = fileGet acc 0 := by
      rw [← hg acc 0 (by rw [hl]; exact hpos)]; simp [hp]
    have hr : ∀ (k : Nat) (hk : k < rest.length), rest[k] = fileGet acc (k + 1) := by
      intro k hk
      rw [← hg acc (k + 1) (by rw [hl]; omega)]
      simp [hp]
    rw [hp]
    apply List.ext_getElem
    · rw [length_polyStep _ _ _ (by rw [hl]; exact hrest), hl, hl]
    · intro k h1 h2
      have hk : k < len := by rw [hl] at h1; exact h1
      rw [getElem_polyStep _ _ _ _ (by rw [hl]; exact hrest) k (by rw [hl]; exact hk), hg, hg,
        fileGet_srStep _ _ _ _ _ (by omega), if_pos hk, hc]
      congr 1
      by_cases hl' : k + 1 < len
      · rw [if_pos hl', dif_pos (by omega), hr]
      · rw [if_neg hl', dif_neg (by omega)]

/-! ### The unit's sequences -/

/-- The residue register after a step, as a sequence (R67). -/
theorem accSeq_feed (s : State) (v : Fe) (h : GlenLegal s) :
    (s.feed v).accSeq = polyStep s.genSeq s.accSeq v := take_srStep _ _ _ _ h

/-- The loaded generator has `GLEN` elements. -/
theorem length_genSeq (s : State) (h : GlenLegal s) : s.genSeq.length = s.glen.toNat := by
  have : s.glen.toNat ≤ 16 := h
  simp [State.genSeq]; omega

/-- The register has `GLEN` elements. -/
theorem length_accSeq (s : State) (h : GlenLegal s) : s.accSeq.length = s.glen.toNat := by
  have : s.glen.toNat ≤ 16 := h
  simp [State.accSeq]; omega

/-! ### The normal form -/

/-- Every element is a stripped leading zero or stays (R23, R69). -/
theorem leadingZeros_add_length_polyNormalize (p : List Fe) :
    leadingZeros p + (polyNormalize p).length = p.length := by
  induction p with
  | nil => rfl
  | cons v rest ih =>
    simp only [leadingZeros, polyNormalize]
    split
    · rw [List.length_cons]; omega
    · simp

/-- The normal form is the sequence without its leading zeros (R69). -/
theorem polyNormalize_eq_drop (p : List Fe) : polyNormalize p = p.drop (leadingZeros p) := by
  induction p with
  | nil => rfl
  | cons v rest ih =>
    simp only [leadingZeros, polyNormalize]
    split
    · rw [ih, List.drop_succ_cons]
    · rfl

end Sys2Proof.Machine
end

