-- ==== Sys2Proof/Tests/Slice0.lean ====
section
/-!
SUPPORT. The tests: well-formedness, one written-out word per command, one step per vector of
spec/95_test_vectors.md, and for each obligation with hypotheses a state and operands that meet them. The
expected values are the spec's own (the section is named at each group).
-/

namespace Sys2Proof.Tests

open Sys2Proof Sys2Proof.Machine

/-! ### States and observations -/

/-- The next state, where there is one. -/
def nextState? : StepResult → Option State
  | .next s => some s
  | .fault _ => none
  | .refused _ => none

/-- What a command leaves in `RES` and `STATUS`. -/
def resStatus (c : Instr) (s : State) : Option (Byte × Byte) :=
  (nextState? (exec c s)).map fun t => (t.res, t.status)

/-- `STATUS` after a command. -/
def statusOf (c : Instr) (s : State) : Option Byte := (nextState? (exec c s)).map fun t => t.status

/-- `GLEN` and the register after a command. -/
def glenAcc (c : Instr) (s : State) : Option (BitVec 5 × List Fe) :=
  (nextState? (exec c s)).map fun t => (t.glen, t.accSeq)

/-- `GLEN` and the loaded generator after a command. -/
def glenGen (c : Instr) (s : State) : Option (BitVec 5 × List Fe) :=
  (nextState? (exec c s)).map fun t => (t.glen, t.genSeq)

/-- The reset state with `RES` set. -/
def withRes (v : Byte) : State := { State.reset with res := v }

/-- The bech32 generator loaded, and a register that begins with the given elements. -/
def bech32With (acc : List Fe) : State :=
  { State.reset with
    glen := 6#5, gen := fileOfList unitParams.genBech32.toList, acc := fileOfList acc }

/-- After an INVALID_CHAR error on `B` and a success: ERR and CODE 0, STK 1, `ECHR` 0x42 (§3.10). -/
def stuck : State := { State.reset with status := 0x10#8, echr := 0x42#8 }

/-! ### Well-formedness: the one check refuses what R42 refuses -/

theorem test_gsel_selector_2_ill_formed : Instr.wellFormed (.gsel 2#2) = false := by decide
theorem test_gsel_selector_3_ill_formed : Instr.wellFormed (.gsel 3#2) = false := by decide
theorem test_gsel_selectors_well_formed :
    Instr.wellFormed (.gsel 0#2) = true ∧ Instr.wellFormed (.gsel 1#2) = true := by decide

/-! ### Decoding: §2's words, written out bit by bit -/

theorem test_decode_nop : decode 0b0000000000000000#16 = .ok .nop := by rfl
theorem test_decode_sclr : decode 0b0000000000000001#16 = .ok .sclr := by rfl
theorem test_decode_fadd : decode 0b0001000011101101#16 = .ok (.fadd (.imm 7#5) 13#5) := by rfl
theorem test_decode_fadd_res : decode 0b0001100000000101#16 = .ok (.fadd (.res 0#5) 5#5) := by rfl
theorem test_decode_fmul : decode 0b0010000011101101#16 = .ok (.fmul (.imm 7#5) 13#5) := by rfl
theorem test_decode_finv : decode 0b0011000000001001#16 = .ok (.finv (.imm 9#5)) := by rfl
theorem test_decode_c2fe : decode 0b0100000001010001#16 = .ok (.c2fe 0x51#8) := by rfl
theorem test_decode_fe2c : decode 0b0101000000010100#16 = .ok (.fe2c (.imm 20#5)) := by rfl
theorem test_decode_gsel : decode 0b0110000000000001#16 = .ok (.gsel 1#2) := by rfl
theorem test_decode_gset : decode 0b0111000000010000#16 = .ok (.gset 16#5) := by rfl
theorem test_decode_gwr : decode 0b1000000111111111#16 = .ok (.gwr 15#4 31#5) := by rfl
theorem test_decode_pclr : decode 0b1001000000000000#16 = .ok .pclr := by rfl
theorem test_decode_pstep : decode 0b1010000000000001#16 = .ok (.pstep (.imm 1#5)) := by rfl
theorem test_decode_hhi : decode 0b1011000001100001#16 = .ok (.hhi 0x61#8) := by rfl
theorem test_decode_hlo : decode 0b1100000001110011#16 = .ok (.hlo 0x73#8) := by rfl
theorem test_decode_ppad : decode 0b1101000000000000#16 = .ok .ppad := by rfl
theorem test_decode_prd : decode 0b1110000000000000#16 = .ok (.prd false 0#4) := by rfl
theorem test_decode_prd_raw : decode 0b1110000000010101#16 = .ok (.prd true 5#4) := by rfl

/-- §2's illegal words, each refused for the reason the table gives. -/
theorem test_decode_refuses_illegal_words :
    decode 0xF000#16 = .error .reservedOpcode ∧ decode 0xFFFF#16 = .error .reservedOpcode ∧
      decode 0x0002#16 = .error (.reservedBits .n0) ∧ decode 0x0800#16 = .error (.reservedBits .n0) ∧
      decode 0x1400#16 = .error (.reservedBits .r2) ∧ decode 0x3020#16 = .error (.reservedBits .r1) ∧
      decode 0xA040#16 = .error (.reservedBits .r1) ∧ decode 0x4100#16 = .error (.reservedBits .b8) ∧
      decode 0x6002#16 = .error .reservedSelector ∧ decode 0x6003#16 = .error .reservedSelector ∧
      decode 0x6004#16 = .error (.reservedBits .g) ∧ decode 0x7020#16 = .error (.reservedBits .l) ∧
      decode 0x8200#16 = .error (.reservedBits .w) ∧ decode 0x9001#16 = .error (.reservedBits .n) ∧
      decode 0xE020#16 = .error (.reservedBits .rd) := by
  refine ⟨?_, ?_, ?_, ?_, ?_, ?_, ?_, ?_, ?_, ?_, ?_, ?_, ?_, ?_, ?_⟩ <;> rfl

/-- §2: an illegal word gives `STATUS` 0x17 from reset. -/
theorem test_illegal_word_status :
    (nextState? (execWord 0xF00D#16 State.reset)).map (fun t => t.status) = some 0x17#8 := by decide

/-! ### One step per command -/

/-- §3.10. -/
theorem test_nop_keeps_sticky : statusOf .nop stuck = some 0x10#8 := by decide
/-- §3.10. -/
theorem test_sclr_clears_sticky : statusOf .sclr stuck = some 0#8 := by decide
/-- §3.10: SCLR keeps `ECHR`. -/
theorem test_sclr_keeps_echr : (nextState? (exec .sclr stuck)).map (fun t => t.echr) = some 0x42#8 := by
  decide
/-- §3.1. -/
theorem test_fadd : resStatus (.fadd (.imm 7#5) 13#5) State.reset = some (0x0A#8, 0#8) := by decide
/-- §3.1: the `S` path takes `RES[4:0]` only. -/
theorem test_fadd_res_drops_high_bits :
    resStatus (.fadd (.res 0#5) 1#5) (withRes 0x4C#8) = some (0x0D#8, 0#8) := by decide
/-- §3.2. -/
theorem test_fmul_reduces : resStatus (.fmul (.imm 2#5) 16#5) State.reset = some (9#8, 0#8) := by decide
/-- §3.2. -/
theorem test_fmul_31_31 : resStatus (.fmul (.imm 31#5) 31#5) State.reset = some (29#8, 0#8) := by decide
/-- §3.3. -/
theorem test_finv : resStatus (.finv (.imm 9#5)) State.reset = some (0x0B#8, 0#8) := by decide +kernel
/-- §3.3: `RES` = 0xE0 has `RES[4:0]` = 0. -/
theorem test_finv_zero_from_res :
    resStatus (.finv (.res 0#5)) (withRes 0xE0#8) = some (0xE0#8, 0x15#8) := by decide
/-- §3.4. -/
theorem test_c2fe : resStatus (.c2fe 0x4C#8) State.reset = some (0x1F#8, 0#8) := by decide
/-- §3.5. -/
theorem test_c2fe_invalid :
    (nextState? (exec (.c2fe 0x42#8) (withRes 7#8))).map (fun t => (t.res, t.status, t.echr)) =
      some (7#8, 0x13#8, 0x42#8) := by decide
/-- §3.4: index 20 is `5`. -/
theorem test_fe2c_20 : resStatus (.fe2c (.imm 20#5)) State.reset = some (0x35#8, 0#8) := by decide
/-- §3.4, program P1 step 6. -/
theorem test_fe2c_res : resStatus (.fe2c (.res 0#5)) (withRes 0x1F#8) = some (0x4C#8, 0#8) := by decide
/-- §3.6. -/
theorem test_gsel_bech32 :
    glenGen (.gsel 1#2) State.reset = some (6#5, [29#5, 22#5, 20#5, 21#5, 29#5, 18#5]) := by decide
/-- §3.6: a second GSEL clears the register. -/
theorem test_gsel_clears_acc :
    glenAcc (.gsel 1#2) (bech32With [0#5, 0#5, 0#5, 0#5, 0#5, 1#5]) =
      some (6#5, [0#5, 0#5, 0#5, 0#5, 0#5, 0#5]) := by decide
/-- §3.6. -/
theorem test_gset_1 : glenGen (.gset 1#5) State.reset = some (1#5, [0#5]) := by decide
/-- §3.6: the first length above `LMAX`. -/
theorem test_gset_17 : statusOf (.gset 17#5) State.reset = some 0x19#8 := by decide
/-- §3.6. -/
theorem test_gwr :
    glenGen (.gwr 5#4 19#5) (bech32With []) = some (6#5, [29#5, 22#5, 20#5, 21#5, 29#5, 19#5]) := by
  decide
/-- §3.6: GWR at an index from `GLEN` on writes hidden state. -/
theorem test_gwr_hidden :
    (nextState? (exec (.gwr 9#4 7#5) (bech32With []))).map (fun t => (t.genSeq, fileGet t.gen 9)) =
      some ([29#5, 22#5, 20#5, 21#5, 29#5, 18#5], 7#5) := by decide
/-- §3.7. -/
theorem test_pclr :
    glenAcc .pclr (bech32With [0#5, 0#5, 0#5, 0#5, 1#5, 5#5]) =
      some (6#5, [0#5, 0#5, 0#5, 0#5, 0#5, 0#5]) := by decide
/-- §3.7: x^7 mod g from x^6 mod g. -/
theorem test_pstep_with_carry :
    glenAcc (.pstep (.imm 0#5)) (bech32With [29#5, 22#5, 20#5, 21#5, 29#5, 18#5]) =
      some (6#5, [15#5, 29#5, 15#5, 26#5, 11#5, 6#5]) := by decide
/-- §3.7. -/
theorem test_pstep_no_gen : statusOf (.pstep (.imm 1#5)) State.reset = some 0x1B#8 := by decide
/-- §3.8. -/
theorem test_hhi :
    glenAcc (.hhi 0x61#8) (bech32With [0#5, 0#5, 0#5, 0#5, 0#5, 1#5]) =
      some (6#5, [0#5, 0#5, 0#5, 0#5, 1#5, 3#5]) := by decide
/-- §3.8: `HHI 0xE0` feeds 7. -/
theorem test_hhi_E0 :
    glenAcc (.hhi 0xE0#8) (bech32With []) = some (6#5, [0#5, 0#5, 0#5, 0#5, 0#5, 7#5]) := by decide
/-- §3.8: `HLO 's'` feeds 19. -/
theorem test_hlo :
    glenAcc (.hlo 0x73#8) (bech32With []) = some (6#5, [0#5, 0#5, 0#5, 0#5, 0#5, 19#5]) := by decide
/-- §3.8: `HLO 0x20` feeds 0. -/
theorem test_hlo_20 :
    glenAcc (.hlo 0x20#8) (bech32With []) = some (6#5, [0#5, 0#5, 0#5, 0#5, 0#5, 0#5]) := by decide
/-- §3.7: PPAD after `PSTEP 1` gives x^6 mod g. -/
theorem test_ppad :
    glenAcc .ppad (bech32With [0#5, 0#5, 0#5, 0#5, 0#5, 1#5]) =
      some (6#5, [29#5, 22#5, 20#5, 21#5, 29#5, 18#5]) := by decide
/-- §3.7. -/
theorem test_ppad_no_gen : statusOf .ppad State.reset = some 0x1B#8 := by decide
/-- §3.7: `PRD 1` on [0, 0, 0, 1, 2, 0]. -/
theorem test_prd :
    resStatus (.prd false 1#4) (bech32With [0#5, 0#5, 0#5, 1#5, 2#5, 0#5]) = some (2#8, 0#8) := by decide
/-- §3.7: `PRD.RAW 4` on the same register. -/
theorem test_prd_raw :
    resStatus (.prd true 4#4) (bech32With [0#5, 0#5, 0#5, 1#5, 2#5, 0#5]) = some (2#8, 0#8) := by decide
/-- §3.7: its `NLEN` is 3. -/
theorem test_nlen : (bech32With [0#5, 0#5, 0#5, 1#5, 2#5, 0#5]).nlen = 3 := by decide

/-! ### States and operands that meet the obligations' hypotheses -/

/-- A host that resets, issues `PSTEP 1`, or reads `STATUS`, in a state with a loaded register. -/
def hostTurn (a : HostAction) : State :=
  { bech32With [1#5, 0#5, 2#5] with status := 0x10#8, port := [a, .command 0xA001#16] }

theorem witness_HostResetEntersResetState :
    ∃ s rest, s = hostTurn .reset ∧ s.port = .reset :: rest := ⟨_, _, rfl, rfl⟩

theorem witness_EveryStepKeepsInvariant :
    UnitInv (hostTurn (.command 0xA01F#16)) ∧ ∃ t, step (hostTurn (.command 0xA01F#16)) = .next t :=
  ⟨by decide, _, rfl⟩

theorem witness_StepRunsDecodedCommand :
    (∃ rest, (hostTurn (.command 0xA001#16)).port = .command 0xA001#16 :: rest) ∧
      decode 0xA001#16 = .ok (.pstep (.imm 1#5)) ∧
      decodeTableWord 16 0xA001 = some (.pstep (.imm 1#5)) := ⟨⟨_, rfl⟩, rfl, rfl⟩

theorem witness_HostReadsHaveNoSideEffect :
    (∃ rest, (hostTurn (.read .status)).port = .read .status :: rest) ∧ State.reset.port = [] :=
  ⟨⟨_, rfl⟩, rfl⟩

theorem witness_DecodeOfEncode :
    Instr.wellFormed (.gsel 1#2) = true ∧ Instr.wellFormed (.gsel 0#2) = true ∧
      Instr.wellFormed (.fadd (.res 31#5) 31#5) = true := by decide

theorem witness_EncodeOfDecode : decode 0x1BE5#16 = .ok (.fadd (.res 31#5) 5#5) := by rfl

theorem witness_ListingReadsBackMostSignificantByteFirst :
    Instr.wellFormed (.gwr 15#4 31#5) = true := by decide

/-- Each format's lowest and highest reserved bit, with the opcode of a clause and no other bit. -/
theorem witness_ReservedBitsRaiseIllegalCmd :
    ∀ x ∈ ([(0x0#4, 0x0FFE#16, 0x0002#16, 0x0800#16), (0x1#4, 0x0400#16, 0x1400#16, 0x1400#16),
          (0x2#4, 0x0400#16, 0x2400#16, 0x2400#16), (0x3#4, 0x07E0#16, 0x3020#16, 0x3400#16),
          (0x4#4, 0x0F00#16, 0x4100#16, 0x4800#16), (0x5#4, 0x07E0#16, 0x5020#16, 0x5400#16),
          (0x6#4, 0x0FFC#16, 0x6004#16, 0x6800#16), (0x7#4, 0x0FE0#16, 0x7020#16, 0x7800#16),
          (0x8#4, 0x0E00#16, 0x8200#16, 0x8800#16), (0x9#4, 0x0FFF#16, 0x9001#16, 0x9800#16),
          (0xA#4, 0x07E0#16, 0xA020#16, 0xA400#16), (0xB#4, 0x0F00#16, 0xB100#16, 0xB800#16),
          (0xC#4, 0x0F00#16, 0xC100#16, 0xC800#16), (0xD#4, 0x0FFF#16, 0xD001#16, 0xD800#16),
          (0xE#4, 0x0FE0#16, 0xE020#16, 0xE800#16)] : List (BitVec 4 × Word × Word × Word)),
      x.2.2.1.extractLsb' 12 4 = x.1 ∧ x.2.2.1 &&& x.2.1 ≠ 0#16 ∧
        x.2.2.2.extractLsb' 12 4 = x.1 ∧ x.2.2.2 &&& x.2.1 ≠ 0#16 := by
  intro x hx
  fin_cases hx <;> decide

theorem witness_EveryWordIsCommandOrIllegalCmd :
    (0xF000#16).extractLsb' 12 4 = 0xF#4 ∧ (0xFFFF#16).extractLsb' 12 4 = 0xF#4 ∧
      (0x6002#16).extractLsb' 12 4 = 0x6#4 ∧ 2 ≤ ((0x6002#16).extractLsb' 0 2).toNat ∧
      (0x6003#16).extractLsb' 12 4 = 0x6#4 ∧ 2 ≤ ((0x6003#16).extractLsb' 0 2).toNat := by decide

theorem witness_FieldMultiplicationLaws :
    feMul 31#5 0#5 = 0#5 ∧ (1#5 : Fe) ≠ 0#5 ∧ (31#5 : Fe) ≠ 0#5 ∧ 0 < 1 ∧ 30 < 31 := by decide

theorem witness_InversionIsUniqueInverse : (1#5 : Fe) ≠ 0#5 ∧ (31#5 : Fe) ≠ 0#5 := by decide

theorem witness_FaddAddsIntoRes :
    (0x1400#16).extractLsb' 12 4 = 0x1#4 ∧ (0x1400#16).getLsbD 10 = true := by decide

theorem witness_FmulMultipliesIntoRes :
    (0x2400#16).extractLsb' 12 4 = 0x2#4 ∧ (0x2400#16).getLsbD 10 = true := by decide

theorem witness_FinvInvertsOrRaisesInvZero :
    (0x3020#16).extractLsb' 12 4 = 0x3#4 ∧ 0x3020#16 &&& 0x07E0#16 ≠ 0#16 ∧
      operandA (.res 31#5) (withRes 0xE0#8) = 0#5 ∧ operandA (.imm 0#5) (withRes 1#8) = 0#5 ∧
      operandA (.imm 1#5) State.reset ≠ 0#5 ∧ operandA (.res 0#5) (withRes 0xFF#8) ≠ 0#5 := by decide

theorem witness_CharacterRoundTrip :
    unitParams.alphabet.toList.Nodup ∧ elemOf unitParams.alphabet 0x51#8 = some 0#5 ∧
      elemOf unitParams.alphabet 0x4C#8 = some 31#5 := by decide

theorem witness_UnitAlphabetIsCorrectedString :
    48 ≤ (0x30#8).toNat ∧ (0x39#8).toNat ≤ 57 ∧ 65 ≤ (0x41#8).toNat ∧ (0x5A#8).toNat ≤ 90 := by decide

theorem witness_C2feConvertsOrRaisesInvalidChar :
    (0x4100#16).extractLsb' 12 4 = 0x4#4 ∧ 0x4100#16 &&& 0x0F00#16 ≠ 0#16 ∧
      0x00#8 ∉ unitParams.alphabet.toList ∧ 0xFF#8 ∉ unitParams.alphabet.toList ∧
      0x71#8 ∉ unitParams.alphabet.toList := by decide

theorem witness_Fe2cWritesCharacterCode :
    (0x5400#16).extractLsb' 12 4 = 0x5#4 ∧ 0x5400#16 &&& 0x07E0#16 ≠ 0#16 := by decide

theorem witness_GselLoadsGeneratorAndClearsAcc :
    (0x6004#16).extractLsb' 12 4 = 0x6#4 ∧ 0x6004#16 &&& 0x0FFC#16 ≠ 0#16 ∧
      (0x6002#16).extractLsb' 12 4 = 0x6#4 ∧ 2 ≤ ((0x6002#16).extractLsb' 0 2).toNat := by decide

theorem witness_GsetSetsLengthOrRaisesBadLen :
    (0x7020#16).extractLsb' 12 4 = 0x7#4 ∧ 0x7020#16 &&& 0x0FE0#16 ≠ 0#16 ∧ (0#5).toNat = 0 ∧
      17 ≤ (17#5).toNat ∧ 17 ≤ (31#5).toNat ∧ 1 ≤ (1#5).toNat ∧ (1#5).toNat ≤ 16 ∧
      1 ≤ (16#5).toNat ∧ (16#5).toNat ≤ 16 := by decide

theorem witness_GwrWritesOneCoefficient :
    (0x8200#16).extractLsb' 12 4 = 0x8#4 ∧ 0x8200#16 &&& 0x0E00#16 ≠ 0#16 ∧
      (bech32With []).glen.toNat ≤ (6#4).toNat := by decide

/-- Lengths 1 and 16, an index below L - 1, and the first index from L on. -/
theorem witness_ShiftRegisterStep :
    (1 ≤ 1 ∧ 1 ≤ 16 ∧ 15 < 16) ∧ (1 ≤ 16 ∧ 16 ≤ 16 ∧ 14 + 1 < 16) ∧ (6 ≤ 6 ∧ 6 < 16) := by
  decide

theorem witness_PclrClearsAcc :
    (0x9001#16).extractLsb' 12 4 = 0x9#4 ∧ 0x9001#16 &&& 0x0FFF#16 ≠ 0#16 := by decide

theorem witness_PstepFeedsOneElement :
    (0xA040#16).extractLsb' 12 4 = 0xA#4 ∧ 0xA040#16 &&& 0x07E0#16 ≠ 0#16 ∧ State.reset.glen = 0#5 ∧
      (bech32With []).glen ≠ 0#5 := by decide

theorem witness_PpadIsGlenZeroSteps :
    (0xD800#16).extractLsb' 12 4 = 0xD#4 ∧ 0xD800#16 &&& 0x0FFF#16 ≠ 0#16 ∧ State.reset.glen = 0#5 ∧
      (bech32With []).glen ≠ 0#5 ∧ GlenLegal (bech32With []) := by decide

theorem witness_PrdReadsResidue :
    (0xE020#16).extractLsb' 12 4 = 0xE#4 ∧ 0xE020#16 &&& 0x0FE0#16 ≠ 0#16 ∧ GlenLegal State.reset ∧
      GlenLegal (bech32With [1#5]) := by decide

theorem witness_NlenIsNormalisedLength :
    GlenLegal (bech32With [0#5, 0#5, 1#5]) ∧ (bech32With [0#5, 0#5, 1#5]).nlen ≠ 0 ∧
      1 + (bech32With [0#5, 0#5, 1#5]).nlen < (bech32With [0#5, 0#5, 1#5]).glen.toNat := by decide

theorem witness_HhiFeedsHighBits :
    (0xB800#16).extractLsb' 12 4 = 0xB#4 ∧ 0xB800#16 &&& 0x0F00#16 ≠ 0#16 ∧ State.reset.glen = 0#5 ∧
      (bech32With []).glen ≠ 0#5 := by decide

theorem witness_HloFeedsLowBits :
    (0xC100#16).extractLsb' 12 4 = 0xC#4 ∧ 0xC100#16 &&& 0x0F00#16 ≠ 0#16 ∧ State.reset.glen = 0#5 ∧
      (bech32With []).glen ≠ 0#5 := by decide

theorem witness_NopOnlyCompletes :
    (0x0002#16).extractLsb' 12 4 = 0x0#4 ∧ 0x0002#16 &&& 0x0FFE#16 ≠ 0#16 := by decide

theorem witness_SclrClearsSticky :
    (0x0003#16).extractLsb' 12 4 = 0x0#4 ∧ 0x0003#16 &&& 0x0FFE#16 ≠ 0#16 := by decide

/-- Each code of R86, and a success, from one state each. -/
theorem witness_ErrorCodeNamesItsCause :
    (∃ t, execWord 0x4042#16 State.reset = .next t ∧ statusCode t.status = 1#3) ∧
      (∃ t, execWord 0x3000#16 State.reset = .next t ∧ statusCode t.status = 2#3) ∧
      (∃ t, execWord 0xF000#16 State.reset = .next t ∧ statusCode t.status = 3#3) ∧
      (∃ t, execWord 0x7000#16 State.reset = .next t ∧ statusCode t.status = 4#3) ∧
      (∃ t, execWord 0xD000#16 State.reset = .next t ∧ statusCode t.status = 5#3) ∧
      ∃ t, execWord 0x0000#16 State.reset = .next t ∧ statusCode t.status = 0#3 :=
  ⟨⟨_, rfl, by decide⟩, ⟨_, rfl, by decide⟩, ⟨_, rfl, by decide⟩, ⟨_, rfl, by decide⟩,
    ⟨_, rfl, by decide⟩, _, rfl, by decide⟩

theorem witness_ErrorsHaveNoPartialEffect :
    (∃ t, execWord 0x7011#16 (bech32With [1#5]) = .next t ∧ statusErr t.status = true ∧
      statusCode t.status ≠ 1#3) ∧
      ∃ t, execWord 0x4042#16 (bech32With [1#5]) = .next t ∧ statusErr t.status = true :=
  ⟨⟨_, rfl, by decide, by decide⟩, _, rfl, by decide⟩

theorem witness_SuccessKeepsStickyAndEchr :
    (∃ t, execWord 0x0001#16 stuck = .next t ∧ statusErr t.status = false) ∧
      ∃ t, execWord 0xA801#16 (bech32With [1#5]) = .next t ∧ statusErr t.status = false :=
  ⟨⟨_, rfl, by decide⟩, _, rfl, by decide⟩

theorem witness_ResWriters :
    (∃ t, exec (.fadd (.imm 7#5) 13#5) State.reset = .next t ∧ t.res ≠ State.reset.res ∧
      statusErr t.status = false) ∧
      (∃ t, exec (.fe2c (.imm 0#5)) State.reset = .next t) ∧
      ∃ t, execWord 0x3000#16 (withRes 7#8) = .next t ∧ statusErr t.status = true :=
  ⟨⟨_, rfl, by decide, by decide⟩, ⟨_, rfl⟩, _, rfl, by decide⟩

theorem witness_GlenWriters :
    (∃ t, exec (.gset 16#5) State.reset = .next t ∧ t.glen ≠ State.reset.glen) ∧
      (∃ t, exec (.gsel 0#2) State.reset = .next t ∧ t.glen ≠ State.reset.glen) ∧
      Instr.mnemonic (.hlo 0#8) ∈ ["PSTEP", "HHI", "HLO", "PPAD"] ∧ State.reset.glen = 0#5 :=
  ⟨⟨_, rfl, by decide⟩, ⟨_, rfl, by decide⟩, by decide, by decide⟩

theorem witness_FileWriters :
    (∃ t, exec (.gwr 15#4 31#5) State.reset = .next t ∧ fileGet t.gen 15 ≠ fileGet State.reset.gen 15) ∧
      (∃ t, exec (.gsel 0#2) State.reset = .next t) ∧ (∃ t, exec (.gsel 1#2) State.reset = .next t) ∧
      (∃ t, exec (.gset 1#5) (bech32With [1#5]) = .next t ∧ statusErr t.status = false) ∧
      (∃ t, exec (.gset 16#5) (bech32With [1#5]) = .next t ∧ statusErr t.status = false) ∧
      (∃ t, exec .pclr (bech32With [1#5]) = .next t ∧ fileGet t.acc 0 ≠ fileGet (bech32With [1#5]).acc 0 ∧
        statusErr t.status = false) ∧
      ∃ t, exec (.pstep (.imm 1#5)) (bech32With [1#5]) = .next t ∧ (bech32With [1#5]).glen.toNat ≤ 6 :=
  ⟨⟨_, rfl, by decide⟩, ⟨_, rfl⟩, ⟨_, rfl⟩, ⟨_, rfl, by decide⟩, ⟨_, rfl, by decide⟩, ⟨_, rfl, by decide, by decide⟩, _, rfl, by decide⟩

theorem witness_EchrWriters :
    (∃ t, execWord 0x4042#16 State.reset = .next t ∧ t.echr ≠ State.reset.echr) ∧
      0x42#8 ∉ unitParams.alphabet.toList := ⟨⟨_, rfl, by decide⟩, by decide⟩

theorem witness_StickyClearedOnlyBySclrOrReset :
    (∃ t, step (hostTurn (.command 0x0001#16)) = .next t ∧
      statusStk (hostTurn (.command 0x0001#16)).status = true ∧ statusStk t.status = false) ∧
      ∃ t, step (hostTurn .reset) = .next t ∧ statusStk (hostTurn .reset).status = true ∧
        statusStk t.status = false :=
  ⟨⟨_, rfl, by decide, by decide⟩, _, rfl, by decide, by decide⟩

/-- `GEN[6]`, the first hidden coefficient of a loaded bech32 generator, differs. -/
theorem witness_HiddenCoefficientsAreUnobservable :
    SameButHidden (hostTurn (.command 0xD000#16))
        { hostTurn (.command 0xD000#16) with
          gen := fileSet (hostTurn (.command 0xD000#16)).gen 6#4 9#5 } ∧
      fileGet (fileSet (hostTurn (.command 0xD000#16)).gen 6#4 9#5) 6 ≠
        fileGet (hostTurn (.command 0xD000#16)).gen 6 ∧
      ∃ t, step (hostTurn (.command 0xD000#16)) = .next t :=
  ⟨by decide, by decide, _, rfl⟩

/-- Custom generators of the least and the greatest length. -/
theorem witness_PolymodCommandsComputePolymod :
    (1 ≤ [3#5].length ∧ [3#5].length ≤ 16) ∧
      1 ≤ (List.replicate 16 31#5).length ∧ (List.replicate 16 31#5).length ≤ 16 := by decide

/-- x^6 = 1 * g + (x^6 mod g) over bech32 (§3.7, row k = 6). -/
theorem witness_PolymodIsTheOnlyRemainder :
    polyAdd (polyMul [0#5, 0#5, 0#5, 0#5, 0#5, 0#5, 1#5] (1#5 :: unitParams.genBech32.toList))
        (List.replicate 7 0#5 ++ [29#5, 22#5, 20#5, 21#5, 29#5, 18#5]) =
      List.replicate 6 0#5 ++ [1#5, 0#5, 0#5, 0#5, 0#5, 0#5, 0#5] := by decide

theorem witness_PolymodIsLinear : [1#5, 2#5].length = [3#5, 0#5].length := by decide

theorem witness_SingleSymbolErrorChangesResidue : (18#5 : Fe) ≠ 0#5 ∧ (19#5 : Fe) ≠ 20#5 := by decide

theorem witness_HrpCommandsComputeHrpResidue :
    (1 ≤ [3#5].length ∧ [3#5].length ≤ 16) ∧ (bech32With [1#5]).glen ≠ 0#5 ∧
      GlenLegal (bech32With [1#5]) := by decide

theorem witness_HrpResidueCorners : (18#5 : Fe) ≠ 0#5 := by decide

theorem witness_CallerVerdictTests :
    GlenLegal (bech32With [0#5, 0#5, 0#5, 0#5, 0#5, 1#5]) ∧
      (bech32With [0#5, 0#5, 0#5, 0#5, 0#5, 1#5]).glen ≠ 0#5 := by decide

theorem witness_FeedHazard : (bech32With []).glen ≠ 0#5 ∧ 0x42#8 ∉ unitParams.alphabet.toList := by decide

end Sys2Proof.Tests
end

section
/-!
PROOF. What a command can do to each register: for every register of spec/10_state.md section 2 and 3, one
inversion of `ExecEffect` that names its writers and what they leave in it. And the converse of
`exec_effect`: every effect it lists is the command's next state.
-/

namespace Sys2Proof.Machine

/-! ### An effect is the command's next state -/

/-- A feeding command records NO_GEN while no generator is loaded (R71, R72, R79, R80). -/
theorem exec_eq_noGen {c : Instr} {s : State} (hc : c.mnemonic ∈ ["PSTEP", "HHI", "HLO", "PPAD"])
    (hg : s.glen = 0#5) : exec c s = .next (s.raiseError .noGen) := by
  have noGen (fed : State) : s.feedingCommand fed = .next (s.raiseError .noGen) := if_pos hg
  cases c with
  | pstep src => exact noGen _
  | hhi b => exact noGen _
  | hlo b => exact noGen _
  | ppad => exact noGen _
  | nop | sclr | fadd | fmul | finv | c2fe | fe2c | gsel | gset | gwr | pclr | prd =>
    simp [Instr.mnemonic] at hc

/-- A feeding command makes its steps when a generator is loaded (R71). -/
theorem feedingCommand_eq_complete {s : State} (fed : State) (hg : s.glen ≠ 0#5) :
    s.feedingCommand fed = .next fed.complete := if_neg hg

/-- A command with an error's cause records the error. -/
theorem exec_of_errorCause {c : Instr} {s : State} {e : UnitError} (h : ErrorCause c s e) :
    exec c s = .next (s.raiseError e) := by
  cases h with
  | invalidChar hb => simp [exec, execC2fe, c2feWith, hb, fail]
  | invZero hz => exact if_pos hz
  | badSelector hs =>
    rename_i sel
    have h0 : sel ≠ 0#2 := by rintro rfl; simp at hs
    have h1 : sel ≠ 1#2 := by rintro rfl; simp at hs
    simp [exec, execGsel, gselWith, h0, h1, fail]
  | badLen hl => exact if_pos ((gset_refuses_iff _).mpr hl)
  | noGen hg hc => exact exec_eq_noGen hc hg

/-- The converse of `exec_effect`: an effect of a command is its next state. -/
theorem exec_of_effect {c : Instr} {s t : State} (h : ExecEffect c s t) : exec c s = .next t := by
  cases h with
  | error he => exact exec_of_errorCause he
  | finv hz => exact if_neg hz
  | c2fe hb => simp [exec, execC2fe, c2feWith, hb, finish]
  | gset h1 h16 => exact if_neg (by rw [gset_refuses_iff]; omega)
  | pstep hg | hhi hg | hlo hg | ppad hg => exact feedingCommand_eq_complete _ hg
  | nop | sclr | fadd | fmul | fe2c | gselCodex32 | gselBech32 | gwr | pclr | prd => rfl

/-! ### A word and a step -/

/-- A word that decodes to a command is that command (R43). -/
theorem execWord_of_decode {w : Word} {c : Instr} (hd : decode w = .ok c) (s : State) :
    execWord w s = exec c s := by
  simp only [execWord, hd]

/-- A word that is no command records ILLEGAL_CMD (R41, R42). -/
theorem execWord_of_not_command {w : Word} (hd : ∀ c, decode w ≠ .ok c) (s : State) :
    execWord w s = .next (s.raiseError .illegalCmd) := by
  cases hw : decode w with
  | ok c => exact absurd hw (hd c)
  | error e => simp only [execWord, hw, fail]

/-- With an action of the host to take, a step takes it (R14, R100). -/
theorem step_of_action {s : State} {a : HostAction} {rest : List HostAction} (hp : s.port = a :: rest) :
    step s = performAction a { s with port := rest } := by
  simp only [step, stepOnce, State.takeAction, hp]

/-- With none, it waits (R28). -/
theorem step_of_idle {s : State} (hp : s.port = []) : step s = .next s := by
  simp only [step, stepOnce, State.takeAction, hp, idle]

/-! ### `STATUS` -/

/-- All a command can do to `STATUS`: complete, SCLR's clearing, or an error's record, which then is all it
does (R84, R87, R88). -/
theorem ExecEffect.status_cases {c : Instr} {s t : State} (h : ExecEffect c s t) :
    t.status = statusCompleted s.status ∨
      (c = .sclr ∧ t.status = statusCompleted (statusUnstuck s.status)) ∨
      ∃ e, ErrorCause c s e ∧ t = s.raiseError e := by
  cases h with
  | error he => exact .inr (.inr ⟨_, he, rfl⟩)
  | sclr => exact .inr (.inl ⟨rfl, rfl⟩)
  | nop | fadd | fmul | finv | c2fe | fe2c | gselCodex32 | gselBech32 | gset | gwr | pclr | pstep | hhi
  | hlo | ppad | prd => left; simp

/-- A command that leaves ERR = 1 did nothing but record its error (R87). -/
theorem ExecEffect.eq_raiseError {c : Instr} {s t : State} (h : ExecEffect c s t)
    (herr : statusErr t.status = true) : ∃ e, ErrorCause c s e ∧ t = s.raiseError e := by
  rcases h.status_cases with hs | ⟨-, hs⟩ | he
  · simp [hs] at herr
  · simp [hs] at herr
  · exact he

/-! ### `RES` -/

/-- All a command can do to `RES` (R15): keep it, when it is no writer or fails; or leave a zero-extended
element, or FE2C an alphabet code. -/
theorem ExecEffect.res_cases {c : Instr} {s t : State} (h : ExecEffect c s t) :
    (t.res = s.res ∧
        (statusErr t.status = true ∨ c.mnemonic ∉ ["FADD", "FMUL", "FINV", "C2FE", "PRD"])) ∨
      (c.mnemonic ∈ ["FADD", "FMUL", "FINV", "C2FE", "PRD"] ∧ ∃ v : Fe, t.res = v.setWidth 8) ∨
      ∃ src, c = .fe2c src ∧ ∃ v, t.res = charOf unitParams.alphabet v := by
  cases h with
  | error => left; simp
  | fadd | fmul | finv | c2fe | prd =>
    exact .inr (.inl ⟨by simp [Instr.mnemonic], _, rfl⟩)
  | fe2c => exact .inr (.inr ⟨_, rfl, _, rfl⟩)
  | nop | sclr | gselCodex32 | gselBech32 | gset | gwr | pclr | pstep | hhi | hlo | ppad =>
    left; simp [Instr.mnemonic]

/-! ### `ECHR` -/

/-- All a command can do to `ECHR` (R17): keep it, or C2FE records the byte it rejected. -/
theorem ExecEffect.echr_cases {c : Instr} {s t : State} (h : ExecEffect c s t) :
    t.echr = s.echr ∨ ∃ b, c = .c2fe b ∧ elemOf unitParams.alphabet b = none ∧
      t = s.raiseError (.invalidChar b) := by
  cases h with
  | error he =>
    cases he with
    | invalidChar hb => exact .inr ⟨_, rfl, hb, rfl⟩
    | invZero | badSelector | badLen | noGen => exact .inl rfl
  | nop | sclr | fadd | fmul | finv | c2fe | fe2c | gselCodex32 | gselBech32 | gset | gwr | pclr | pstep
  | hhi | hlo | ppad | prd => left; simp

/-! ### `GLEN` -/

/-- All a command can do to `GLEN` (R18, R64, R65). -/
theorem ExecEffect.glen_cases {c : Instr} {s t : State} (h : ExecEffect c s t) :
    t.glen = s.glen ∨ (c = .gsel 0#2 ∧ t.glen = 13#5) ∨ (c = .gsel 1#2 ∧ t.glen = 6#5) ∨
      ∃ len, c = .gset len ∧ t.glen = len ∧ 1 ≤ len.toNat ∧ len.toNat ≤ 16 := by
  cases h with
  | gselCodex32 => exact .inr (.inl ⟨rfl, rfl⟩)
  | gselBech32 => exact .inr (.inr (.inl ⟨rfl, rfl⟩))
  | gset h1 h16 => exact .inr (.inr (.inr ⟨_, rfl, rfl, h1, h16⟩))
  | error | nop | sclr | fadd | fmul | finv | c2fe | fe2c | gwr | pclr | pstep | hhi | hlo | ppad | prd =>
    left; simp

/-- A legal `GLEN` stays legal (R18). -/
theorem ExecEffect.glenLegal {c : Instr} {s t : State} (h : ExecEffect c s t) (hs : GlenLegal s) :
    GlenLegal t := by
  rcases h.glen_cases with hk | ⟨-, hk⟩ | ⟨-, hk⟩ | ⟨len, -, hk, -, h16⟩
  · rwa [GlenLegal, hk]
  · simp [GlenLegal, hk, Config.lmax]
  · simp [GlenLegal, hk, Config.lmax]
  · rwa [GlenLegal, hk]

/-! ### `GEN` and `ACC` -/

/-- A command that is none of GSEL, GSET and GWR keeps `GEN` (R21). -/
theorem ExecEffect.gen_cases {c : Instr} {s t : State} (h : ExecEffect c s t) :
    t.gen = s.gen ∨ c.mnemonic ∈ ["GSEL", "GSET", "GWR"] := by
  cases h with
  | gselCodex32 | gselBech32 | gset | gwr => right; simp [Instr.mnemonic]
  | error | nop | sclr | fadd | fmul | finv | c2fe | fe2c | pclr | pstep | hhi | hlo | ppad | prd =>
    left; simp

/-- A step of the register leaves the elements from `GLEN` on alone (R67). -/
theorem fileGet_feed_of_le (s : State) (v : Fe) {k : Nat} (hk : k < 16) (hg : s.glen.toNat ≤ k) :
    fileGet (s.feed v).acc k = fileGet s.acc k := by
  rw [State.feed_acc, fileGet_srStep _ _ _ _ _ hk, if_neg (Nat.not_lt.mpr hg)]

/-- So do the steps of PPAD (R72). -/
theorem fileGet_feedZeros_of_le (s : State) (n : Nat) {k : Nat} (hk : k < 16) (hg : s.glen.toNat ≤ k) :
    fileGet (s.feedZeros n).acc k = fileGet s.acc k := by
  induction n generalizing s with
  | zero => rfl
  | succ n ih => rw [State.feedZeros, ih (s.feed 0#5) hg, fileGet_feed_of_le s 0#5 hk hg]

/-- All a command can do to `ACC` (R22): keep it, clear it, or step it within its `GLEN` elements; where
it is not cleared, `GLEN` is kept. -/
theorem ExecEffect.acc_cases {c : Instr} {s t : State} (h : ExecEffect c s t) :
    (t.acc = s.acc ∧ t.glen = s.glen ∧
        (statusErr t.status = true ∨ c.mnemonic ∉ ["GSEL", "GSET", "PCLR"])) ∨
      (c.mnemonic ∈ ["GSEL", "GSET", "PCLR"] ∧ t.acc = zeroFile) ∨
      (c.mnemonic ∈ ["PSTEP", "HHI", "HLO", "PPAD"] ∧ t.glen = s.glen ∧
        ∀ k < 16, s.glen.toNat ≤ k → fileGet t.acc k = fileGet s.acc k) := by
  cases h with
  | gselCodex32 | gselBech32 | gset | pclr => exact .inr (.inl ⟨by simp [Instr.mnemonic], rfl⟩)
  | pstep | hhi | hlo =>
    exact .inr (.inr ⟨by simp [Instr.mnemonic], by simp, fun k hk hg => by
      rw [State.complete_acc, fileGet_feed_of_le _ _ hk hg]⟩)
  | ppad =>
    exact .inr (.inr ⟨by simp [Instr.mnemonic], by simp, fun k hk hg => by
      rw [State.complete_acc, fileGet_feedZeros_of_le _ _ hk hg]⟩)
  | error => left; simp
  | nop | sclr | fadd | fmul | finv | c2fe | fe2c | gwr | prd => left; simp [Instr.mnemonic]

end Sys2Proof.Machine
end

section
/-!
PROOF. The invariant of the unit's states (R16, R18, R25): it holds after reset, and each kind of step keeps
it.
-/

namespace Sys2Proof.Machine

/-- The status word of a completed command is legal when the reserved bits are 0 (R88). -/
theorem statusLegal_completed {w : Byte} (h : statusReserved w = 0#3) :
    StatusLegal (statusCompleted w) := by
  simp [StatusLegal, h]

/-- The status word of a recorded error is legal when the reserved bits are 0 (R86, R87). -/
theorem statusLegal_raised {w : Byte} (e : UnitError) (h : statusReserved w = 0#3) :
    StatusLegal (statusRaised (errorCode e) w) := by
  have hne : errorCode e ≠ 0#3 := fun h0 => by have := (errorCode_range e).1; simp [h0] at this
  simp [StatusLegal, h, hne, (errorCode_range e).2]

/-- Every command leaves a legal status word (R16). -/
theorem ExecEffect.statusLegal {c : Instr} {s t : State} (h : ExecEffect c s t)
    (hr : statusReserved s.status = 0#3) : StatusLegal t.status := by
  rcases h.status_cases with hs | ⟨-, hs⟩ | ⟨e, -, rfl⟩
  · rw [hs]; exact statusLegal_completed hr
  · rw [hs]; exact statusLegal_completed (by simpa using hr)
  · exact statusLegal_raised e hr

/-- Every command keeps the elements of `ACC` from `GLEN` on at 0 (R25). -/
theorem ExecEffect.accTailZero {c : Instr} {s t : State} (h : ExecEffect c s t) (hz : AccTailZero s) :
    AccTailZero t := by
  intro k hk hg
  rcases h.acc_cases with ⟨hacc, hglen, -⟩ | ⟨-, hacc⟩ | ⟨-, hglen, hacc⟩
  · rw [hacc]; exact hz k hk (hglen ▸ hg)
  · rw [hacc, fileGet_zeroFile]
  · rw [hglen] at hg; rw [hacc k hk hg]; exact hz k hk hg

/-- Every command keeps the invariant. -/
theorem ExecEffect.unitInv {c : Instr} {s t : State} (h : ExecEffect c s t) (hs : UnitInv s) :
    UnitInv t := by
  obtain ⟨⟨hr, -⟩, hglen, htail⟩ := hs
  exact ⟨h.statusLegal hr, h.glenLegal hglen, h.accTailZero htail⟩

/-- An error's record keeps the invariant (R87). -/
theorem unitInv_raiseError {s : State} (e : UnitError) (hs : UnitInv s) : UnitInv (s.raiseError e) := by
  obtain ⟨⟨hr, -⟩, hrest⟩ := hs
  exact ⟨statusLegal_raised e hr, hrest⟩

/-- Every word keeps the invariant. -/
theorem unitInv_execWord {w : Word} {s t : State} (h : execWord w s = .next t) (hs : UnitInv s) :
    UnitInv t := by
  rcases execWord_effect h with ⟨c, -, hc⟩ | ⟨-, rfl⟩
  · exact hc.unitInv hs
  · exact unitInv_raiseError _ hs

/-- The invariant does not depend on what the host does next. -/
theorem unitInv_withPort (s : State) (rest : List HostAction) :
    UnitInv { s with port := rest } ↔ UnitInv s := Iff.rfl

/-- Settles O3: after reset every register is 0. -/
theorem resetMeetsInvariant : Obligations.ResetMeetsInvariant :=
  ⟨by decide, by decide, fun k _ _ => fileGet_zeroFile k⟩

/-- Settles O4, by the cases of a step: waiting, a word, a read and a reset. -/
theorem everyStepKeepsInvariant : Obligations.EveryStepKeepsInvariant := by
  intro s t hs hstep
  rcases step_cases hstep with ⟨-, rfl⟩ | ⟨w, rest, -, hw⟩ | ⟨r, rest, -, rfl⟩ | ⟨rest, -, rfl⟩
  · exact hs
  · exact unitInv_execWord hw ((unitInv_withPort s rest).mpr hs)
  · exact (unitInv_withPort s rest).mpr hs
  · exact (unitInv_withPort _ rest).mpr resetMeetsInvariant

end Sys2Proof.Machine
end

section
/-!
PROOF. R25, X8: `GEN[i]` for i >= GLEN cannot be observed. Each state operation takes two states that differ
at most there to two such states, so every effect of a command has its counterpart, and so does every step.
-/

namespace Sys2Proof.Machine

/-! ### What two such states have in common -/

/-- Operand A is the same (R39). -/
theorem SameButHidden.operandA_eq {s t : State} (h : SameButHidden s t) (src : Src) :
    operandA src t = operandA src s := by
  obtain ⟨hres, -⟩ := h
  cases src with
  | imm a => rfl
  | res a => simp only [operandA, State.resElem, hres]

/-- `NLEN` is the same (R23). -/
theorem SameButHidden.nlen_eq {s t : State} (h : SameButHidden s t) : t.nlen = s.nlen := by
  obtain ⟨-, -, -, hglen, hacc, -⟩ := h
  simp only [State.nlen, hglen, hacc]

/-- What PRD reads is the same (R73). -/
theorem SameButHidden.prdElem_eq {s t : State} (h : SameButHidden s t) (raw : Bool) (k : Nat) :
    (if raw then t.rawElem k else t.normElem k) = if raw then s.rawElem k else s.normElem k := by
  have hnlen := h.nlen_eq
  obtain ⟨-, -, -, hglen, hacc, -⟩ := h
  simp only [State.rawElem, State.normElem, hnlen, hglen, hacc]

/-- The host reads the same (R26). -/
theorem SameButHidden.hostRead_eq {s t : State} (h : SameButHidden s t) (r : OutReg) :
    t.hostRead r = s.hostRead r := by
  have hnlen := h.nlen_eq
  obtain ⟨hres, hstatus, hechr, hglen, -⟩ := h
  cases r with
  | res => exact hres
  | status => simp only [State.hostRead, hstatus]
  | echr => exact hechr
  | glen => simp only [State.hostRead, hglen]
  | nlen => simp only [State.hostRead, hnlen]

/-- An error with a cause in one has it in the other: a cause reads operand A and `GLEN` only. -/
theorem SameButHidden.errorCause {c : Instr} {e : UnitError} {s t : State} (h : SameButHidden s t)
    (he : ErrorCause c s e) : ErrorCause c t e := by
  obtain ⟨-, -, -, hglen, -⟩ := id h
  cases he with
  | invalidChar hb => exact .invalidChar hb
  | invZero hz => exact .invZero ((h.operandA_eq _).trans hz)
  | badSelector hs => exact .badSelector hs
  | badLen hl => exact .badLen hl
  | noGen hg hc => exact .noGen (hglen.trans hg) hc

/-! ### What keeps two states alike -/

/-- Recording an error (R87). -/
theorem SameButHidden.raiseError {s t : State} (h : SameButHidden s t) (e : UnitError) :
    SameButHidden (s.raiseError e) (t.raiseError e) := by
  obtain ⟨hres, hstatus, hechr, hrest⟩ := h
  exact ⟨hres, by simp [hstatus], by simp [hechr], hrest⟩

/-- Completing (R88). -/
theorem SameButHidden.complete {s t : State} (h : SameButHidden s t) :
    SameButHidden s.complete t.complete := by
  obtain ⟨hres, hstatus, hrest⟩ := h
  exact ⟨hres, by simp [hstatus], hrest⟩

/-- Writing an element to `RES` (R15). -/
theorem SameButHidden.setResElem {s t : State} (h : SameButHidden s t) (v : Fe) :
    SameButHidden (s.setResElem v) (t.setResElem v) := ⟨rfl, h.2⟩

/-- Writing a code to `RES` (R15). -/
theorem SameButHidden.setResByte {s t : State} (h : SameButHidden s t) (v : Byte) :
    SameButHidden (s.setResByte v) (t.setResByte v) := ⟨rfl, h.2⟩

/-- SCLR's clearing of STK (R84). -/
theorem SameButHidden.unstuck {s t : State} (h : SameButHidden s t) :
    SameButHidden { s with status := statusUnstuck s.status }
      { t with status := statusUnstuck t.status } := by
  obtain ⟨hres, hstatus, hrest⟩ := h
  exact ⟨hres, congrArg statusUnstuck hstatus, hrest⟩

/-- Loading a generator, after which no element of `GEN` differs (R64, R65). -/
theorem SameButHidden.loadGenerator {s t : State} (h : SameButHidden s t) (len : BitVec 5)
    (g : List Fe) : SameButHidden (s.loadGenerator len g) (t.loadGenerator len g) := by
  obtain ⟨hres, hstatus, hechr, -, -, hport, -⟩ := h
  exact ⟨hres, hstatus, hechr, rfl, rfl, hport, fun _ _ _ => rfl⟩

/-- Writing one element of `GEN`, hidden or not (R66). -/
theorem SameButHidden.writeGen {s t : State} (h : SameButHidden s t) (idx : BitVec 4) (v : Fe) :
    SameButHidden { s with gen := fileSet s.gen idx v } { t with gen := fileSet t.gen idx v } := by
  obtain ⟨hres, hstatus, hechr, hglen, hacc, hport, hgen⟩ := h
  refine ⟨hres, hstatus, hechr, hglen, hacc, hport, fun k hk hlt => ?_⟩
  rw [fileGet_fileSet, fileGet_fileSet, hgen k hk hlt]

/-- Clearing `ACC` (R70). -/
theorem SameButHidden.clearAcc {s t : State} (h : SameButHidden s t) :
    SameButHidden s.clearAcc t.clearAcc := by
  obtain ⟨hres, hstatus, hechr, hglen, -, hrest⟩ := h
  exact ⟨hres, hstatus, hechr, hglen, rfl, hrest⟩

/-- A step of the register reads `GEN` below the length only (R67). -/
theorem srStep_congr_gen {len : Nat} {gen gen' : ElemFile} (v : Fe) (acc : ElemFile)
    (h : ∀ k < 16, k < len → fileGet gen' k = fileGet gen k) :
    srStep len gen' v acc = srStep len gen v acc := by
  refine file_ext _ _ fun k hk => ?_
  rw [fileGet_srStep _ _ _ _ _ hk, fileGet_srStep _ _ _ _ _ hk]
  by_cases hlt : k < len
  · rw [if_pos hlt, if_pos hlt, h k hk hlt]
  · rw [if_neg hlt, if_neg hlt]

/-- One step of the register (R71). -/
theorem SameButHidden.feed {s t : State} (h : SameButHidden s t) (v : Fe) :
    SameButHidden (s.feed v) (t.feed v) := by
  obtain ⟨hres, hstatus, hechr, hglen, hacc, hport, hgen⟩ := h
  have hstep : srStep t.glen.toNat t.gen v t.acc = srStep s.glen.toNat s.gen v s.acc := by
    rw [hglen, hacc, srStep_congr_gen v s.acc hgen]
  simp only [SameButHidden, State.feed_res, State.feed_status, State.feed_echr, State.feed_glen,
    State.feed_gen, State.feed_acc, State.feed_port]
  exact ⟨hres, hstatus, hechr, hglen, hstep, hport, hgen⟩

/-- The steps of PPAD (R72). -/
theorem SameButHidden.feedZeros {s t : State} (h : SameButHidden s t) (n : Nat) :
    SameButHidden (s.feedZeros n) (t.feedZeros n) := by
  induction n generalizing s t with
  | zero => exact h
  | succ n ih =>
    rw [State.feedZeros, State.feedZeros]
    exact ih (h.feed 0#5)

/-- Taking an action of the host (R14). -/
theorem SameButHidden.withPort {s t : State} (h : SameButHidden s t) (rest : List HostAction) :
    SameButHidden { s with port := rest } { t with port := rest } := by
  obtain ⟨hres, hstatus, hechr, hglen, hacc, -, hgen⟩ := h
  exact ⟨hres, hstatus, hechr, hglen, hacc, rfl, hgen⟩

/-! ### Commands, words and steps -/

/-- Every effect of a command on the one state has its counterpart on the other. -/
theorem ExecEffect.sameButHidden {c : Instr} {s s' t : State} (hc : ExecEffect c s s')
    (h : SameButHidden s t) : ∃ t', ExecEffect c t t' ∧ SameButHidden s' t' := by
  obtain ⟨-, -, -, hglen, -⟩ := id h
  cases hc with
  | error he => exact ⟨_, .error (h.errorCause he), h.raiseError _⟩
  | nop => exact ⟨_, .nop, h.complete⟩
  | sclr => exact ⟨_, .sclr, h.unstuck.complete⟩
  | fadd => exact ⟨_, .fadd, h.operandA_eq _ ▸ (h.setResElem _).complete⟩
  | fmul => exact ⟨_, .fmul, h.operandA_eq _ ▸ (h.setResElem _).complete⟩
  | finv hz => exact ⟨_, .finv (h.operandA_eq _ ▸ hz), h.operandA_eq _ ▸ (h.setResElem _).complete⟩
  | c2fe hb => exact ⟨_, .c2fe hb, (h.setResElem _).complete⟩
  | fe2c => exact ⟨_, .fe2c, h.operandA_eq _ ▸ (h.setResByte _).complete⟩
  | gselCodex32 => exact ⟨_, .gselCodex32, (h.loadGenerator _ _).complete⟩
  | gselBech32 => exact ⟨_, .gselBech32, (h.loadGenerator _ _).complete⟩
  | gset h1 h16 => exact ⟨_, .gset h1 h16, (h.loadGenerator _ _).complete⟩
  | gwr => exact ⟨_, .gwr, (h.writeGen _ _).complete⟩
  | pclr => exact ⟨_, .pclr, h.clearAcc.complete⟩
  | pstep hg => exact ⟨_, .pstep (hglen ▸ hg), h.operandA_eq _ ▸ (h.feed _).complete⟩
  | hhi hg => exact ⟨_, .hhi (hglen ▸ hg), (h.feed _).complete⟩
  | hlo hg => exact ⟨_, .hlo (hglen ▸ hg), (h.feed _).complete⟩
  | ppad hg => exact ⟨_, .ppad (hglen ▸ hg), hglen ▸ (h.feedZeros _).complete⟩
  | prd => exact ⟨_, .prd, h.prdElem_eq _ _ ▸ (h.setResElem _).complete⟩

/-- Every word's next state has its counterpart too, whether the word is a command or not. -/
theorem execWord_sameButHidden {w : Word} {s s' t : State} (hw : execWord w s = .next s')
    (h : SameButHidden s t) : ∃ t', execWord w t = .next t' ∧ SameButHidden s' t' := by
  rcases execWord_effect hw with ⟨c, hd, hc⟩ | ⟨hd, rfl⟩
  · obtain ⟨t', hc', h'⟩ := hc.sameButHidden h
    exact ⟨t', (execWord_of_decode hd t).trans (exec_of_effect hc'), h'⟩
  · exact ⟨_, execWord_of_not_command hd t, h.raiseError _⟩

/-- Every step has its counterpart, since the two states have the same port. -/
theorem step_sameButHidden {s s' t : State} (hstep : step s = .next s') (h : SameButHidden s t) :
    ∃ t', step t = .next t' ∧ SameButHidden s' t' := by
  obtain ⟨-, -, -, -, -, hport, -⟩ := id h
  rcases step_cases hstep with ⟨hp, rfl⟩ | ⟨w, rest, hp, hw⟩ | ⟨r, rest, hp, rfl⟩ | ⟨rest, hp, rfl⟩
  · exact ⟨t, step_of_idle (hport.trans hp), h⟩
  · obtain ⟨t', hw', h'⟩ := execWord_sameButHidden hw (h.withPort rest)
    exact ⟨t', (step_of_action (hport.trans hp)).trans hw', h'⟩
  · exact ⟨_, step_of_action (hport.trans hp), h.withPort rest⟩
  · exact ⟨_, step_of_action (hport.trans hp), rfl, rfl, rfl, rfl, rfl, rfl, fun _ _ _ => rfl⟩

/-- Settles O51: a step keeps two states alike but for the hidden coefficients, and the host's reads of alike
states agree. -/
theorem hiddenCoefficientsAreUnobservable : Obligations.HiddenCoefficientsAreUnobservable := by
  intro s t s' h hstep
  obtain ⟨t', hstep', h'⟩ := step_sameButHidden hstep h
  exact ⟨t', hstep', h', h'.hostRead_eq⟩

end Sys2Proof.Machine
end

section
/-!
PROOF. The registers of spec/10_state.md, one by one: who writes each and what, what the host reads, and when
STK falls.
-/

namespace Sys2Proof.Machine

/-! ### The step and the host's reads -/

/-- Settles O6: a step takes the presented word, and the word is its command. -/
theorem stepRunsDecodedCommand : Obligations.StepRunsDecodedCommand := by
  refine ⟨fun s w rest c hp hd => ?_, fun s w c hd => ?_⟩
  · exact (step_of_action hp).trans (execWord_of_decode hd _)
  · have hd' : decode (tableWord 16 w) = .ok c := by
      unfold decodeTableWord at hd
      split at hd
      · cases hd; assumption
      · cases hd
    have hstep : step (s.withFetchWord 16 w) = execWord (tableWord 16 w) s :=
      step_of_action (State.present_port s (.command (tableWord 16 w)))
    rw [hstep, execWord_of_decode hd']

/-- A read of `STATUS` keeps bits 4:0 and reads the reserved bits as 0 (R16). -/
theorem toNat_statusRead (w : Byte) : (statusRead w).toNat = w.toNat % 32 := by
  revert w; decide

/-- `NLEN` is at most `GLEN` (R23). -/
theorem nlen_le_glen (s : State) : s.nlen ≤ s.glen.toNat := Nat.sub_le _ _

/-- A read of `GLEN` is zero-extended (R26). -/
theorem toNat_hostRead_glen (s : State) : (s.hostRead .glen).toNat = s.glen.toNat :=
  BitVec.toNat_setWidth_of_le (by decide)

/-- A read of `NLEN` does not wrap (R26). -/
theorem toNat_hostRead_nlen (s : State) : (s.hostRead .nlen).toNat = s.nlen := by
  have := nlen_le_glen s
  simp only [State.hostRead, BitVec.toNat_ofNat]
  omega

/-- What the host reads does not depend on what it does next. -/
theorem hostRead_withPort (s : State) (rest : List HostAction) (r : OutReg) :
    ({ s with port := rest } : State).hostRead r = s.hostRead r := by
  cases r <;> rfl

/-- Settles O7: a read only takes the action, and no register a read answers depends on the port. -/
theorem hostReadsHaveNoSideEffect : Obligations.HostReadsHaveNoSideEffect := by
  refine ⟨fun s r rest hp => ?_, fun s hp => step_of_idle hp, fun s => ?_⟩
  · exact ⟨_, step_of_action hp, rfl, hostRead_withPort s rest⟩
  · have hstatus : (s.hostRead .status).toNat = s.status.toNat % 32 := toNat_statusRead s.status
    refine ⟨rfl, rfl, ?_, ?_, toNat_hostRead_glen s, toNat_hostRead_nlen s⟩ <;> omega

/-! ### `NLEN` -/

/-- The elements before the first nonzero one are 0 (R23). -/
theorem getElem_of_lt_leadingZeros (p : List Fe) (k : Nat) (hk : k < leadingZeros p)
    (hl : k < p.length) : p[k] = 0#5 := by
  induction p generalizing k with
  | nil => simp at hl
  | cons v rest ih =>
    by_cases hv : v = 0#5
    · cases k with
      | zero => exact hv
      | succ k =>
        rw [leadingZeros, if_pos hv] at hk
        exact ih k (by omega) (Nat.lt_of_succ_lt_succ hl)
    · simp [leadingZeros, hv] at hk

/-- The element after them is not (R23). -/
theorem getElem_leadingZeros_ne_zero (p : List Fe) (hl : leadingZeros p < p.length) :
    p[leadingZeros p] ≠ 0#5 := by
  induction p with
  | nil => simp at hl
  | cons v rest ih =>
    by_cases hv : v = 0#5
    · simp only [leadingZeros, if_pos hv, List.length_cons] at hl ⊢
      exact ih (by omega)
    · simp [leadingZeros, hv]

/-- Element `k` of the register as a sequence. -/
theorem getElem_accSeq (s : State) (hs : GlenLegal s) (k : Nat) (hk : k < s.accSeq.length) :
    s.accSeq[k] = fileGet s.acc k := by
  have h16 : k < 16 := by
    rw [length_accSeq s hs] at hk
    exact lt_of_lt_of_le hk hs
  simp [State.accSeq, fileGet, h16]

/-- GLEN is NLEN and the zeros before it (R23). -/
theorem leadingZeros_add_nlen (s : State) (hs : GlenLegal s) :
    leadingZeros s.accSeq + s.nlen = s.glen.toNat := by
  have hle := leadingZeros_add_length_polyNormalize s.accSeq
  rw [length_accSeq s hs] at hle
  have : s.nlen = s.glen.toNat - leadingZeros s.accSeq := rfl
  omega

/-- `NLEN` is the length of the normalised residue (R23, R69). -/
theorem length_residue (s : State) (hs : GlenLegal s) : s.residue.length = s.nlen := by
  have hle := leadingZeros_add_length_polyNormalize s.accSeq
  rw [length_accSeq s hs, ← leadingZeros_add_nlen s hs] at hle
  exact Nat.add_left_cancel hle

/-- Settles O38: GLEN - NLEN is the number of leading zeros of the register. -/
theorem nlenIsNormalisedLength : Obligations.NlenIsNormalisedLength := by
  intro s hs
  have hz := leadingZeros_add_nlen s hs
  have hlen := length_accSeq s hs
  have hglen : s.glen.toNat ≤ 16 := hs
  refine ⟨nlen_le_glen s, fun k hk => ?_, fun hne => ?_, length_residue s hs,
    (nlen_le_glen s).trans hglen, rfl⟩
  · rw [← getElem_accSeq s hs k (by omega)]
    exact getElem_of_lt_leadingZeros _ k (by omega) _
  · have hfirst : s.glen.toNat - s.nlen = leadingZeros s.accSeq := by omega
    rw [hfirst, ← getElem_accSeq s hs _ (by omega)]
    exact getElem_leadingZeros_ne_zero _ _

/-! ### `RES` -/

/-- A word that leaves ERR = 1 did nothing but record an error (R87). -/
theorem execWord_eq_raiseError {w : Word} {s t : State} (h : execWord w s = .next t)
    (herr : statusErr t.status = true) : ∃ e, t = s.raiseError e := by
  rcases execWord_effect h with ⟨c, -, hc⟩ | ⟨-, ht⟩
  · obtain ⟨e, -, ht⟩ := hc.eq_raiseError herr
    exact ⟨e, ht⟩
  · exact ⟨_, ht⟩

/-- A zero-extended element is below 32 (R15). -/
theorem toNat_setWidth_fe_lt (v : Fe) : (v.setWidth 8 : Byte).toNat < 32 := by
  rw [BitVec.toNat_setWidth_of_le (by decide)]
  exact v.isLt

/-- A row of the table is one of its codes (R56). -/
theorem charOf_mem (table : Vector Byte 32) (v : Fe) : charOf table v ∈ table.toList := by
  simp [charOf]

/-- Settles O46, by what a command can do to `RES`. -/
theorem resWriters : Obligations.ResWriters := by
  refine ⟨fun c s t h hne => ?_, fun c s t h herr hc => ?_, fun src s t h => ?_, fun w s t h herr => ?_,
    fun a s => ⟨?_, rfl⟩, rfl⟩
  · rcases (exec_effect h).res_cases with ⟨hk, -⟩ | ⟨hc, -⟩ | ⟨src, rfl, -⟩
    · exact absurd hk hne
    · exact List.mem_append_left ["FE2C"] hc
    · simp [Instr.mnemonic]
  · rcases (exec_effect h).res_cases with ⟨-, herr' | hc'⟩ | ⟨-, v, hv⟩ | ⟨src, rfl, -⟩
    · simp [herr] at herr'
    · exact absurd hc hc'
    · rw [hv]; exact toNat_setWidth_fe_lt v
    · simp [Instr.mnemonic] at hc
  · rw [finish_eq_next h]
    exact charOf_mem _ _
  · obtain ⟨e, rfl⟩ := execWord_eq_raiseError h herr
    rfl
  · simp [operandA, State.resElem]

/-! ### `GLEN` -/

/-- Recording an error has the frame of R87. -/
theorem recordsError_raiseError (s : State) (e : UnitError) :
    RecordsError (errorCode e) (echrAfter e s.echr) s (s.raiseError e) := by
  simp [RecordsError, FilesKept]

/-- Settles O47, by what a command can do to `GLEN`. -/
theorem glenWriters : Obligations.GlenWriters := by
  refine ⟨fun c s t h hne => ?_, fun c s t h => (exec_effect h).glenLegal, toNat_hostRead_glen, rfl,
    fun c s hc hg => ⟨_, exec_eq_noGen hc hg, recordsError_raiseError s .noGen⟩⟩
  rcases (exec_effect h).glen_cases with hk | ⟨hc, hk⟩ | ⟨hc, hk⟩ | hset
  · exact absurd hk hne
  · exact .inl ⟨hc, by rw [hk]; rfl⟩
  · exact .inr (.inl ⟨hc, by rw [hk]; rfl⟩)
  · exact .inr (.inr hset)

/-! ### `GEN` and `ACC` -/

/-- A generator loaded from a list reads back from it (R64, R65). -/
theorem fileGet_loadGenerator_complete (s : State) (len : BitVec 5) (g : List Fe) {k : Nat}
    (hk : k < 16) : fileGet (s.loadGenerator len g).complete.gen k = g.getD k 0#5 := by
  simp only [State.complete_gen, State.loadGenerator_gen, fileGet_fileOfList, if_pos hk]

/-- GSET that succeeds leaves all of `GEN` 0 (R65). -/
theorem fileGet_gen_of_gset {len : BitVec 5} {s t : State} (h : exec (.gset len) s = .next t)
    (herr : statusErr t.status = false) {k : Nat} (hk : k < 16) : fileGet t.gen k = 0#5 := by
  cases exec_effect h with
  | error => simp at herr
  | gset => rw [fileGet_loadGenerator_complete s len [] hk, List.getD_nil]

/-- No clearing command is a feeding one. -/
theorem not_feeding_of_clearing :
    ∀ m ∈ ["GSEL", "GSET", "PCLR"], m ∉ ["PSTEP", "HHI", "HLO", "PPAD"] := by decide

/-- Settles O48, by what a command can do to `GEN` and to `ACC`. -/
theorem fileWriters : Obligations.FileWriters := by
  refine ⟨fun c s t h hne => ?_, fun idx v s t h k _ => ?_, fun s t h k hk => ?_,
    fun s t h k hk => ?_, fun len s t h herr k hk => fileGet_gen_of_gset h herr hk,
    fun c s t h hne => ?_, fun c s t h hc herr k _ => ?_, fun c s t h hc k hk hg => ?_⟩
  · exact (exec_effect h).gen_cases.resolve_left hne
  · rw [finish_eq_next h, State.complete_gen, fileGet_fileSet]
  · rw [finish_eq_next h, fileGet_loadGenerator_complete s _ _ hk]
  · rw [finish_eq_next h, fileGet_loadGenerator_complete s _ _ hk]
  · rcases (exec_effect h).acc_cases with ⟨hk, -⟩ | ⟨hc, -⟩ | ⟨hc, -⟩
    · exact absurd hk hne
    · exact List.mem_append_left ["PSTEP", "HHI", "HLO", "PPAD"] hc
    · exact List.mem_append_right ["GSEL", "GSET", "PCLR"] hc
  · rcases (exec_effect h).acc_cases with ⟨-, -, herr' | hc'⟩ | ⟨-, hz⟩ | ⟨hc', -⟩
    · simp [herr] at herr'
    · exact absurd hc hc'
    · rw [hz, fileGet_zeroFile]
    · exact absurd hc' (not_feeding_of_clearing _ hc)
  · rcases (exec_effect h).acc_cases with ⟨hk', -⟩ | ⟨hc', -⟩ | ⟨-, -, hacc⟩
    · rw [hk']
    · exact absurd hc (not_feeding_of_clearing _ hc')
    · exact hacc k hk hg

/-! ### `ECHR` -/

/-- The bytes C2FE rejects are those outside the alphabet (R57). -/
theorem elemOf_eq_none_iff (table : Vector Byte 32) (b : Byte) :
    elemOf table b = none ↔ b ∉ table.toList := by
  simp [elemOf, List.idxOf?_eq_none_iff]

/-- Settles O49, by what a command can do to `ECHR`. -/
theorem echrWriters : Obligations.EchrWriters := by
  refine ⟨fun w s t h hne => ?_, fun b s hb => ?_, fun s => rfl, rfl⟩
  · rcases execWord_effect h with ⟨c, hd, hc⟩ | ⟨-, rfl⟩
    · rcases hc.echr_cases with hk | ⟨b, rfl, hb, rfl⟩
      · exact absurd hk hne
      · exact ⟨by simp [errorCode], b, hd, (elemOf_eq_none_iff _ b).mp hb, rfl⟩
    · exact absurd rfl hne
  · have hcause : ErrorCause (.c2fe b) s (.invalidChar b) :=
      .invalidChar ((elemOf_eq_none_iff _ b).mpr hb)
    exact ⟨_, exec_of_errorCause hcause, by simp [errorCode], rfl⟩

/-! ### STK -/

/-- Only opcode 0 gives SCLR (R40). -/
theorem opcodeMap_eq_sclr {op : Nat} {fmt : Format} {build : Word → Instr} {w : Word}
    (hm : opcodeMap op = some (fmt, build)) (hc : build w = .sclr) :
    op = 0 ∧ fmt = .n0 ∧ w.getLsbD 0 = true := by
  unfold opcodeMap at hm
  split at hm <;> cases hm
  case h_1 => exact ⟨rfl, rfl, by simpa using hc⟩
  all_goals cases hc

/-- The word of format N0 with opcode 0, no reserved bit and bit 0 set (R37, R41). -/
theorem eq_one_of_n0_fields {w : Word} (hop : opField w = 0#4) (hr : w &&& reservedMask .n0 = 0#16)
    (h0 : w.getLsbD 0 = true) : w = 0x0001#16 := by
  have hhigh (k : Nat) (hk : k < 4) : w.getLsbD (12 + k) = false := by
    have := congrArg (·.getLsbD k) hop
    simpa [opField, hk] using this
  have hmid (k : Nat) : (w.getLsbD k && (reservedMask .n0).getLsbD k) = false := by
    rw [← BitVec.getLsbD_and, hr, BitVec.getLsbD_zero]
  apply BitVec.eq_of_getLsbD_eq
  intro k hk
  rcases Nat.lt_or_ge k 12 with hlow | hge
  · rcases Nat.eq_zero_or_pos k with rfl | hpos
    · exact h0
    · have hmask : (reservedMask .n0).getLsbD k = true := by interval_cases k <;> rfl
      have hbit := hmid k
      rw [hmask, Bool.and_true] at hbit
      simp [hbit, BitVec.getLsbD_one, hpos.ne']
  · obtain ⟨j, rfl⟩ := Nat.exists_eq_add_of_le hge
    simp [hhigh j (by omega), BitVec.getLsbD_one]

/-- Only the word 0x0001 is SCLR (R84). -/
theorem eq_one_of_decode_sclr {w : Word} (h : decode w = .ok .sclr) : w = 0x0001#16 := by
  obtain ⟨fmt, build, hm, hr, -, hc⟩ := decode_ok_cases h
  obtain ⟨hop, rfl, h0⟩ := opcodeMap_eq_sclr hm hc.symm
  exact eq_one_of_n0_fields (BitVec.eq_of_toNat_eq hop) hr h0

/-- A word that takes STK from 1 to 0 is SCLR's (R84, R87, R88). -/
theorem execWord_unsticks {w : Word} {s t : State} (h : execWord w s = .next t)
    (hs : statusStk s.status = true) (ht : statusStk t.status = false) : w = 0x0001#16 := by
  rcases execWord_effect h with ⟨c, hd, hc⟩ | ⟨-, rfl⟩
  · rcases hc.status_cases with hk | ⟨rfl, -⟩ | ⟨e, -, rfl⟩
    · simp [hk, hs] at ht
    · exact eq_one_of_decode_sclr hd
    · simp at ht
  · simp at ht

/-- Settles O50, by the cases of a step. -/
theorem stickyClearedOnlyBySclrOrReset : Obligations.StickyClearedOnlyBySclrOrReset := by
  intro s t hstep hs ht
  rcases step_cases hstep with ⟨-, rfl⟩ | ⟨w, rest, hp, hw⟩ | ⟨r, rest, -, rfl⟩ | ⟨rest, hp, -⟩
  · simp [hs] at ht
  · exact ⟨rest, .inl (execWord_unsticks hw hs ht ▸ hp)⟩
  · simp [hs] at ht
  · exact ⟨rest, .inr hp⟩

end Sys2Proof.Machine
end

section
/-!
PROOF. Byte listings (R29): the decoder reads every well-formed command back from its word (R37, R43), a
word is its high byte followed by its low byte, and so a listing reads back.
-/

namespace Sys2Proof

/-! ### The decoder reads back the encoder's words -/

/-- Operand A is read back from its two fields (R39). -/
theorem srcOf_sBit_aField (src : Src) : srcOf (src.sBit.getLsbD 0) src.aField = src := by
  cases src with
  | imm a => simp [srcOf, Src.sBit, Src.aField]
  | res a => simp [srcOf, Src.sBit, Src.aField]

/-- A legal selector is 0 or 1, so its high bit is 0 (R38, R43). -/
theorem selHigh_of_wellFormed {sel : BitVec 2} (h : (Instr.gsel sel).wellFormed = true) :
    sel.getLsbD 1 = false :=
  Nat.testBit_lt_two_pow (of_decide_eq_true h)

/-- A word with no reserved bit set and no illegal selector is the command its fields give (R43). -/
theorem decode_of_opField {w : Word} {op : BitVec 4} {fmt : Format} {build : Word → Instr} {c : Instr}
    (hop : opField w = op) (hm : opcodeMap op.toNat = some (fmt, build))
    (hr : w &&& reservedMask fmt = 0#16) (hs : op = 0x6#4 → w.getLsbD 1 = false) (hc : build w = c) :
    decode w = .ok c := by
  subst hop hc
  exact decode_eq_ok hm hr hs

/-- The decoder reads back every well-formed command, format by format (R37, R43). -/
theorem decode_encode {c : Instr} (hc : c.wellFormed = true) : decode (encode c) = .ok c := by
  cases c with
  | nop | sclr =>
    exact decode_of_opField (opField_n0 _ _) rfl (reserved_n0 _ _) (by simp) rfl
  | fadd src b | fmul src b =>
    exact decode_of_opField (opField_r2 _ _ _ _) rfl (reserved_r2 _ _ _ _) (by simp)
      (by rw [encode, sField_r2, aFieldR2_r2, lowField_r2, srcOf_sBit_aField])
  | finv src | fe2c src | pstep src =>
    exact decode_of_opField (opField_r1 _ _ _) rfl (reserved_r1 _ _ _) (by simp)
      (by rw [encode, sField_r1, lowField_r1, srcOf_sBit_aField])
  | c2fe byte | hhi byte | hlo byte =>
    exact decode_of_opField (opField_b8 _ _) rfl (reserved_b8 _ _) (by simp)
      (by rw [encode, byteField_b8])
  | gsel sel =>
    exact decode_of_opField (opField_g _ _) rfl (reserved_g _ _)
      (fun _ => (selHigh_g _ _).trans (selHigh_of_wellFormed hc)) (by rw [encode, selField_g])
  | gset len =>
    exact decode_of_opField (opField_l _ _) rfl (reserved_l _ _) (by simp) (by rw [encode, lowField_l])
  | gwr idx v =>
    exact decode_of_opField (opField_w _ _ _) rfl (reserved_w _ _ _) (by simp)
      (by rw [encode, idxFieldW_w, lowField_w])
  | pclr | ppad => exact decode_of_opField (opField_n _) rfl (reserved_n _) (by simp) rfl
  | prd raw idx =>
    exact decode_of_opField (opField_rd _ _ _) rfl (reserved_rd _ _ _) (by simp)
      (by rw [encode, rawField_rd, idxFieldRd_rd])

/-! ### A word and its two bytes -/

/-- The high byte and then the low byte are the word (R29). -/
theorem highByte_append_lowByte (w : Word) : w.extractLsb' 8 8 ++ w.extractLsb' 0 8 = w := by
  rw [BitVec.extractLsb'_append_extractLsb'_eq_extractLsb' (by decide)]
  exact BitVec.extractLsb'_eq_self

/-- The high byte is the word's value divided by 256. -/
theorem highByte_eq_ofNat (w : Word) : w.extractLsb' 8 8 = BitVec.ofNat 8 (w.toNat / 256) := by
  rw [BitVec.extractLsb', Nat.shiftRight_eq_div_pow]

/-- The low byte is the rest. -/
theorem lowByte_eq_ofNat (w : Word) : w.extractLsb' 0 8 = BitVec.ofNat 8 (w.toNat % 256) := by
  apply BitVec.eq_of_toNat_eq
  simp

/-! ### Listings -/

/-- A listing of words reads back (R29). -/
theorem wordsOfListing_listingOfWords (ws : List Word) :
    wordsOfListing (listingOfWords ws) = .ok ws := by
  induction ws with
  | nil => rfl
  | cons w ws ih => simp only [listingOfWords, wordsOfListing, ih, highByte_append_lowByte]

/-- The first command of a listing is its first word's, and the bytes after it are left (R29). -/
theorem decodeListing_listingOfWords_cons {w : Word} {c : Instr} (hd : decode w = .ok c)
    (ws : List Word) : decodeListing (listingOfWords (w :: ws)) = .ok (c, listingOfWords ws) := by
  simp only [listingOfWords, decodeListing, highByte_append_lowByte, hd]

/-- Settles O14: a word is its two bytes, high byte first, and the decoder reads back the encoder's words. -/
theorem listingReadsBackMostSignificantByteFirst :
    Obligations.ListingReadsBackMostSignificantByteFirst := by
  refine ⟨wordsOfListing_listingOfWords, fun w ws => ?_,
    fun c ws hc => decodeListing_listingOfWords_cons (decode_encode hc) ws⟩
  rw [listingOfWords, highByte_eq_ofNat, lowByte_eq_ofNat]

end Sys2Proof
end

section
/-!
PROOF. R33, R101: the host's later actions pass through every command unread and unchanged, so one step per
presented word is the run of the words in order.
-/

namespace Sys2Proof.Machine

/-! ### Operations that neither read nor change the port -/

/-- From every state there is one next state, whatever the host's actions still to come are, and they are
carried over as they stand (log entry 1). -/
def CarriesPort (f : State → StepResult) : Prop :=
  ∀ s : State, ∃ t : State, ∀ q, f { s with port := q } = .next { t with port := q }

/-- Recording an error carries the port over (R87). -/
theorem carriesPort_fail (e : UnitError) : CarriesPort (fail e) :=
  fun s => ⟨s.raiseError e, fun _ => rfl⟩

/-- So does completing with writes that do (R88). -/
theorem carriesPort_finish {f : State → State}
    (hf : ∀ (s : State) q, f { s with port := q } = { f s with port := q }) :
    CarriesPort fun s => finish (f s) :=
  fun s => ⟨(f s).complete, fun q => congrArg finish (hf s q)⟩

/-- So does a choice on a condition that does not read the port. -/
theorem carriesPort_ite {p : State → Prop} [DecidablePred p] {f g : State → StepResult}
    (hp : ∀ (s : State) q, p { s with port := q } ↔ p s) (hf : CarriesPort f) (hg : CarriesPort g) :
    CarriesPort fun s => if p s then f s else g s := by
  intro s
  by_cases h : p s
  · obtain ⟨t, ht⟩ := hf s
    exact ⟨t, fun q => (if_pos ((hp s q).mpr h)).trans (ht q)⟩
  · obtain ⟨t, ht⟩ := hg s
    exact ⟨t, fun q => (if_neg (mt (hp s q).mp h)).trans (ht q)⟩

/-- So does a feeding command whose steps do (R71). -/
theorem carriesPort_feedingCommand {f : State → State}
    (hf : ∀ (s : State) q, f { s with port := q } = { f s with port := q }) :
    CarriesPort fun s => s.feedingCommand (f s) :=
  carriesPort_ite (fun _ _ => Iff.rfl) (carriesPort_fail .noGen) (carriesPort_finish hf)

/-- The steps of PPAD do not read the port (R72). -/
theorem feedZeros_withPort (s : State) (q : List HostAction) (n : Nat) :
    ({ s with port := q } : State).feedZeros n = { s.feedZeros n with port := q } := by
  induction n generalizing s with
  | zero => rfl
  | succ n ih => exact ih (s.feed 0#5)

/-! ### Commands and words -/

/-- Every command carries the port over. -/
theorem carriesPort_exec (c : Instr) : CarriesPort (exec c) := by
  cases c with
  | finv src =>
    exact carriesPort_ite (fun _ _ => Iff.rfl) (carriesPort_fail .invZero)
      (carriesPort_finish fun _ _ => rfl)
  | c2fe byte =>
    cases hb : elemOf unitParams.alphabet byte with
    | none =>
      simpa only [CarriesPort, exec, execC2fe, c2feWith, hb] using carriesPort_fail (.invalidChar byte)
    | some v =>
      simpa only [CarriesPort, exec, execC2fe, c2feWith, hb] using
        carriesPort_finish (f := fun s => s.setResElem v) fun _ _ => rfl
  | gsel sel =>
    exact carriesPort_ite (fun _ _ => Iff.rfl) (carriesPort_finish fun _ _ => rfl)
      (carriesPort_ite (fun _ _ => Iff.rfl) (carriesPort_finish fun _ _ => rfl)
        (carriesPort_fail .illegalCmd))
  | gset len =>
    exact carriesPort_ite (fun _ _ => Iff.rfl) (carriesPort_fail .badLen)
      (carriesPort_finish fun _ _ => rfl)
  | pstep | hhi | hlo => exact carriesPort_feedingCommand fun _ _ => rfl
  | ppad => exact carriesPort_feedingCommand fun s q => feedZeros_withPort s q s.glen.toNat
  | nop | sclr | fadd | fmul | fe2c | gwr | pclr | prd => exact carriesPort_finish fun _ _ => rfl

/-- So does every word, a command or not (R42). -/
theorem carriesPort_execWord (w : Word) : CarriesPort (execWord w) := by
  cases hd : decode w with
  | ok c => simpa only [CarriesPort, execWord, hd] using carriesPort_exec c
  | error e => simpa only [CarriesPort, execWord, hd] using carriesPort_fail .illegalCmd

/-! ### Runs -/

/-- A run of steps that begins with a next state goes on from it. -/
theorem core_run_succ_of_step {s t : State} (h : step s = .next t) (n : Nat) :
    core.run (n + 1) s = core.run n t := by
  have hcore : core.step s = .next t := h
  simp only [Host.Core.run, hcore]

/-- A run of words goes on from the next state of its first word (R101). -/
theorem runWords_cons_of_execWord {w : Word} {s t : State} (h : execWord w s = .next t)
    (ws : List Word) : runWords (w :: ws) s = runWords ws t := by
  rw [runWords, h]

/-- Settles O8, by induction on the words: a step takes the first one, and leaves the others to come. -/
theorem stepsRunPresentedWordsInOrder : Obligations.StepsRunPresentedWordsInOrder := by
  intro ws
  induction ws with
  | nil => exact fun _ _ => rfl
  | cons w ws ih =>
    intro s rest
    obtain ⟨t, ht⟩ := carriesPort_execWord w s
    have hstep : step { s with port := .command w :: (ws.map HostAction.command ++ rest) } =
        .next { t with port := ws.map HostAction.command ++ rest } :=
      (step_of_action (a := .command w) rfl).trans (ht _)
    have hfirst : core.run (w :: ws).length { s with port := (w :: ws).map HostAction.command ++ rest } =
        core.run ws.length { t with port := ws.map HostAction.command ++ rest } :=
      core_run_succ_of_step hstep ws.length
    have hwords : runWords (w :: ws) { s with port := rest } = runWords ws { t with port := rest } :=
      runWords_cons_of_execWord (ht rest) ws
    exact hfirst.trans ((ih t rest).trans hwords.symm)

end Sys2Proof.Machine
end

section
/-!
PROOF. Decode and encode (spec/30_encoding.md R37 to R43): a word without reserved bits is its fields side by
side, so encoding gives back every word that decodes; the decoder and the opcode table accept the same
words, and every other word records ILLEGAL_CMD.
-/

namespace Sys2Proof

open Sys2Proof.Machine

/-- Settles O9, by the decoder's equation for each format. -/
theorem decodeOfEncode : Obligations.DecodeOfEncode := fun _ hc => decode_encode hc

/-! ### A word is its fields, format by format (R37) -/

/-- The bits of a reserved field are 0 in a word that its format accepts (R41). -/
theorem extractLsb'_eq_zero_of_reserved {w : Word} {fmt : Format} (hr : w &&& reservedMask fmt = 0#16)
    (start len : Nat) (hm : (reservedMask fmt).extractLsb' start len = BitVec.allOnes len) :
    w.extractLsb' start len = 0#len := by
  have h := congrArg (BitVec.extractLsb' start len) hr
  rwa [BitVec.extractLsb'_and, hm, BitVec.and_allOnes, BitVec.extractLsb'_zero] at h

/-- The `A` field of an operand read from a word is the field read (R39). -/
theorem aField_srcOf (s : Bool) (a : Fe) : (srcOf s a).aField = a := by
  cases s <;> rfl

/-- Its `S` bit is the bit read (R39). -/
theorem sBit_srcOf (s : Bool) (a : Fe) : (srcOf s a).sBit = BitVec.ofBool s := by
  cases s <;> rfl

/-- One bit of a word as a field. -/
theorem ofBool_getLsbD (w : Word) (k : Nat) : BitVec.ofBool (w.getLsbD k) = w.extractLsb' k 1 := by
  apply BitVec.eq_of_getLsbD_eq
  intro j hj
  obtain rfl : j = 0 := by omega
  simp

/-- The `S` bit of an operand read from a word is the word's bit 11 (R37, R39). -/
theorem sBit_srcOf_sField (w : Word) (a : Fe) : (srcOf (sField w) a).sBit = w.extractLsb' 11 1 :=
  (sBit_srcOf _ _).trans (ofBool_getLsbD w 11)

/-- A word with no reserved bit set, as its format lays it out (R37); so for each format below. -/
theorem fields_n0 {w : Word} {op : BitVec 4} (hop : opField w = op)
    (hr : w &&& reservedMask .n0 = 0#16) : op ++ 0#11 ++ w.extractLsb' 0 1 = w := by
  rw [← hop, ← extractLsb'_eq_zero_of_reserved hr 1 11 rfl]
  simp only [opField, BitVec.extractLsb'_append_extractLsb'_eq_extractLsb']
  exact BitVec.extractLsb'_eq_self

theorem fields_n {w : Word} {op : BitVec 4} (hop : opField w = op)
    (hr : w &&& reservedMask .n = 0#16) : op ++ 0#12 = w := by
  rw [← hop, ← extractLsb'_eq_zero_of_reserved hr 0 12 rfl]
  simp only [opField, BitVec.extractLsb'_append_extractLsb'_eq_extractLsb']
  exact BitVec.extractLsb'_eq_self

theorem fields_r2 {w : Word} {op : BitVec 4} (hop : opField w = op)
    (hr : w &&& reservedMask .r2 = 0#16) :
    op ++ w.extractLsb' 11 1 ++ 0#1 ++ aFieldR2 w ++ lowField w = w := by
  rw [← hop, ← extractLsb'_eq_zero_of_reserved hr 10 1 rfl]
  simp only [opField, aFieldR2, lowField, BitVec.extractLsb'_append_extractLsb'_eq_extractLsb']
  exact BitVec.extractLsb'_eq_self

theorem fields_r1 {w : Word} {op : BitVec 4} (hop : opField w = op)
    (hr : w &&& reservedMask .r1 = 0#16) :
    op ++ w.extractLsb' 11 1 ++ 0#6 ++ lowField w = w := by
  rw [← hop, ← extractLsb'_eq_zero_of_reserved hr 5 6 rfl]
  simp only [opField, lowField, BitVec.extractLsb'_append_extractLsb'_eq_extractLsb']
  exact BitVec.extractLsb'_eq_self

theorem fields_b8 {w : Word} {op : BitVec 4} (hop : opField w = op)
    (hr : w &&& reservedMask .b8 = 0#16) : op ++ 0#4 ++ byteField w = w := by
  rw [← hop, ← extractLsb'_eq_zero_of_reserved hr 8 4 rfl]
  simp only [opField, byteField, BitVec.extractLsb'_append_extractLsb'_eq_extractLsb']
  exact BitVec.extractLsb'_eq_self

theorem fields_g {w : Word} {op : BitVec 4} (hop : opField w = op)
    (hr : w &&& reservedMask .g = 0#16) : op ++ 0#10 ++ selField w = w := by
  rw [← hop, ← extractLsb'_eq_zero_of_reserved hr 2 10 rfl]
  simp only [opField, selField, BitVec.extractLsb'_append_extractLsb'_eq_extractLsb']
  exact BitVec.extractLsb'_eq_self

theorem fields_l {w : Word} {op : BitVec 4} (hop : opField w = op)
    (hr : w &&& reservedMask .l = 0#16) : op ++ 0#7 ++ lowField w = w := by
  rw [← hop, ← extractLsb'_eq_zero_of_reserved hr 5 7 rfl]
  simp only [opField, lowField, BitVec.extractLsb'_append_extractLsb'_eq_extractLsb']
  exact BitVec.extractLsb'_eq_self

theorem fields_w {w : Word} {op : BitVec 4} (hop : opField w = op)
    (hr : w &&& reservedMask .w = 0#16) : op ++ 0#3 ++ idxFieldW w ++ lowField w = w := by
  rw [← hop, ← extractLsb'_eq_zero_of_reserved hr 9 3 rfl]
  simp only [opField, idxFieldW, lowField, BitVec.extractLsb'_append_extractLsb'_eq_extractLsb']
  exact BitVec.extractLsb'_eq_self

theorem fields_rd {w : Word} {op : BitVec 4} (hop : opField w = op)
    (hr : w &&& reservedMask .rd = 0#16) :
    op ++ 0#7 ++ BitVec.ofBool (rawField w) ++ idxFieldRd w = w := by
  rw [← hop, ← extractLsb'_eq_zero_of_reserved hr 5 7 rfl, rawField, ofBool_getLsbD]
  simp only [opField, idxFieldRd, BitVec.extractLsb'_append_extractLsb'_eq_extractLsb']
  exact BitVec.extractLsb'_eq_self

/-! ### Encode of decode -/

/-- SCLR and NOP are told apart by bit 0 (R37). -/
theorem encode_sclr_or_nop (w : Word) :
    encode (if w.getLsbD 0 then .sclr else .nop) = 0x0#4 ++ 0#11 ++ w.extractLsb' 0 1 := by
  rw [← ofBool_getLsbD]
  cases w.getLsbD 0 <;> rfl

/-- The command a word's fields give encodes to the word: the encoder lays out the fields the opcode map
reads (R37, R40). -/
theorem encode_build {w : Word} {op : Nat} {fmt : Format} {build : Word → Instr}
    (hm : opcodeMap op = some (fmt, build)) (hop : opField w = BitVec.ofNat 4 op)
    (hr : w &&& reservedMask fmt = 0#16) : encode (build w) = w := by
  unfold opcodeMap at hm
  split at hm <;> cases hm
  case h_1 => exact (encode_sclr_or_nop w).trans (fields_n0 hop hr)
  case h_2 | h_3 => simpa only [encode, aField_srcOf, sBit_srcOf_sField] using fields_r2 hop hr
  case h_4 | h_6 | h_11 => simpa only [encode, aField_srcOf, sBit_srcOf_sField] using fields_r1 hop hr
  case h_5 | h_12 | h_13 => exact fields_b8 hop hr
  case h_7 => exact fields_g hop hr
  case h_8 => exact fields_l hop hr
  case h_9 => exact fields_w hop hr
  case h_10 | h_14 => exact fields_n hop hr
  case h_15 => exact fields_rd hop hr

/-- A selector whose high bit is 0 is legal (R38, R43). -/
theorem toNat_selField_lt {w : Word} (h : w.getLsbD 1 = false) : (selField w).toNat < 2 := by
  have hhigh : (selField w).getLsbD 1 = false := by simpa [selField] using h
  generalize selField w = sel at hhigh
  revert sel
  decide

/-- The command a word's fields give is well formed, but for a selector above 1 (R38, R42). -/
theorem wellFormed_build {w : Word} {op : Nat} {fmt : Format} {build : Word → Instr}
    (hm : opcodeMap op = some (fmt, build)) (hs : op = 6 → w.getLsbD 1 = false) :
    (build w).wellFormed = true := by
  unfold opcodeMap at hm
  split at hm <;> cases hm
  case h_1 => dsimp only; split <;> rfl
  case h_7 => exact decide_eq_true (toNat_selField_lt (hs rfl))
  all_goals rfl

/-- Settles O10: a command that decodes is what its opcode builds from the word's fields, and those fields,
with the reserved bits 0, are the word. -/
theorem encodeOfDecode : Obligations.EncodeOfDecode := by
  intro w c hd
  obtain ⟨fmt, build, hm, hr, hs, rfl⟩ := decode_ok_cases hd
  exact ⟨wellFormed_build hm fun h6 => hs (BitVec.eq_of_toNat_eq h6), encode_build hm (by simp) hr⟩

/-- A word decodes to a command exactly when it is the word of that command, well formed (R43). -/
theorem decode_eq_ok_iff {w : Word} {c : Instr} :
    decode w = .ok c ↔ c.wellFormed = true ∧ encode c = w := by
  refine ⟨encodeOfDecode w c, ?_⟩
  rintro ⟨hc, rfl⟩
  exact decode_encode hc

/-! ### The opcode table (R40) -/

/-- Every command's word matches the table's row of its mnemonic. -/
theorem rowMatch (c : Instr) : Laws.RowMatch.Statement c := by
  cases c with
  | nop => exact Laws.RowMatch.nop
  | sclr => exact Laws.RowMatch.sclr
  | fadd src b => exact Laws.RowMatch.fadd src b
  | fmul src b => exact Laws.RowMatch.fmul src b
  | finv src => exact Laws.RowMatch.finv src
  | c2fe byte => exact Laws.RowMatch.c2fe byte
  | fe2c src => exact Laws.RowMatch.fe2c src
  | gsel sel => exact Laws.RowMatch.gsel sel
  | gset len => exact Laws.RowMatch.gset len
  | gwr idx v => exact Laws.RowMatch.gwr idx v
  | pclr => exact Laws.RowMatch.pclr
  | pstep src => exact Laws.RowMatch.pstep src
  | hhi byte => exact Laws.RowMatch.hhi byte
  | hlo byte => exact Laws.RowMatch.hlo byte
  | ppad => exact Laws.RowMatch.ppad
  | prd raw idx => exact Laws.RowMatch.prd raw idx

theorem mem_matchingRows {w : Word} {row : OpcodeRow} :
    row ∈ matchingRows w ↔ row ∈ opcodeTable ∧ w &&& row.mask = row.bits := by
  simp [matchingRows]

/-- Two rows of the table differ in a bit that both fix, so no word matches both. -/
theorem opcodeTable_pairwise_conflict :
    opcodeTable.Pairwise fun r r' => r.bits &&& r'.mask ≠ r'.bits &&& r.mask := by decide

/-- A row that a word matches is the only one. -/
theorem matchingRows_eq_singleton {w : Word} {row : OpcodeRow} (h : row ∈ matchingRows w) :
    matchingRows w = [row] := by
  have hpair : (matchingRows w).Pairwise fun r r' => r.bits &&& r'.mask ≠ r'.bits &&& r.mask :=
    opcodeTable_pairwise_conflict.filter _
  have hagree (r : OpcodeRow) (hr : r ∈ matchingRows w) (r' : OpcodeRow) (hr' : r' ∈ matchingRows w) :
      r.bits &&& r'.mask = r'.bits &&& r.mask := by
    rw [← (mem_matchingRows.mp hr).2, ← (mem_matchingRows.mp hr').2, BitVec.and_assoc,
      BitVec.and_comm r.mask, ← BitVec.and_assoc]
  match hl : matchingRows w with
  | [] => simp [hl] at h
  | [r] => rw [hl] at h; rw [List.mem_singleton.mp h]
  | r :: r' :: rest =>
    rw [hl] at hpair
    exact absurd (hagree r (by simp [hl]) r' (by simp [hl])) (List.rel_of_pairwise_cons hpair (by simp))

/-- What a table row says agrees with the decoder: it fixes its opcode, the reserved bits of the opcode's
format at 0, and the high bit of GSEL's selector at 0 (R40 to R43). -/
def RowAgrees (row : OpcodeRow) : Prop :=
  ∃ fmt build, opcodeMap (opField row.bits).toNat = some (fmt, build) ∧ opField row.mask = 0xF#4 ∧
    row.mask &&& reservedMask fmt = reservedMask fmt ∧ row.bits &&& reservedMask fmt = 0#16 ∧
    (opField row.bits = 0x6#4 → row.mask.getLsbD 1 = true ∧ row.bits.getLsbD 1 = false)

theorem rowAgrees_of_mem {row : OpcodeRow} (h : row ∈ opcodeTable) : RowAgrees row := by
  unfold RowAgrees
  fin_cases h <;> exact ⟨_, _, rfl, by decide⟩

/-- A word that matches a table row decodes. -/
theorem exists_decode_of_matches {w : Word} {row : OpcodeRow} (h : row ∈ matchingRows w) :
    ∃ c, decode w = .ok c := by
  obtain ⟨hmem, hw⟩ := mem_matchingRows.mp h
  obtain ⟨fmt, build, hm, hmask, hres, hbits, hsel⟩ := rowAgrees_of_mem hmem
  have hop : opField w = opField row.bits := by
    rw [← hw, opField, opField, BitVec.extractLsb'_and, ← opField, ← opField, hmask]
    exact (BitVec.and_allOnes (x := opField w)).symm
  have hr : w &&& reservedMask fmt = 0#16 := by rw [← hres, ← BitVec.and_assoc, hw, hbits]
  refine ⟨build w, decode_eq_ok (hop ▸ hm) hr fun h6 => ?_⟩
  obtain ⟨hone, hzero⟩ := hsel (hop ▸ h6)
  rwa [← hw, BitVec.getLsbD_and, hone, Bool.and_true] at hzero

/-- Settles O11: a command's word matches its row and no other, and a word that matches a row decodes. -/
theorem decoderAgreesWithOpcodeTable : Obligations.DecoderAgreesWithOpcodeTable := by
  intro w
  cases hd : decode w with
  | ok c =>
    obtain ⟨hc, rfl⟩ := decode_eq_ok_iff.mp hd
    obtain ⟨row, hmem, hname, hmatch⟩ := rowMatch c hc
    exact .inl ⟨c, row, rfl, matchingRows_eq_singleton (mem_matchingRows.mpr ⟨hmem, hmatch⟩), hname⟩
  | error e =>
    refine .inr ⟨⟨e, rfl⟩, List.eq_nil_iff_forall_not_mem.mpr fun row hrow => ?_⟩
    obtain ⟨c, hok⟩ := exists_decode_of_matches hrow
    rw [hd] at hok
    cases hok

/-! ### ILLEGAL_CMD (R41, R42) -/

/-- A word that is no command records ILLEGAL_CMD in every state (R41, R42, R87). -/
theorem illegalCommand_of_not_command {w : Word} (h : ∀ c, decode w ≠ .ok c) : IllegalCommand w :=
  fun s => ⟨_, execWord_of_not_command h s, recordsError_raiseError s .illegalCmd⟩

/-- A reserved bit of the opcode's format makes a word illegal, whatever the rest of it is (R41). -/
theorem illegalCommand_of_reserved {w : Word} {fmt : Format} {build : Word → Instr}
    (hm : opcodeMap (opField w).toNat = some (fmt, build)) (hr : w &&& reservedMask fmt ≠ 0#16) :
    IllegalCommand w := by
  refine illegalCommand_of_not_command fun c hc => ?_
  rw [decode_eq_reservedBits hm hr] at hc
  cases hc

/-- Settles O15: each mask of the list is the reserved mask of the format its opcode selects. -/
theorem reservedBitsRaiseIllegalCmd : Obligations.ReservedBitsRaiseIllegalCmd := by
  intro w om hom hop hr
  have hmask : ∃ fmt build, opcodeMap om.1.toNat = some (fmt, build) ∧ reservedMask fmt = om.2 := by
    fin_cases hom <;> exact ⟨_, _, rfl, rfl⟩
  obtain ⟨fmt, build, hm, hfmt⟩ := hmask
  rw [← hop] at hm
  rw [← hfmt] at hr
  exact illegalCommand_of_reserved hm hr

/-- Opcode 0xF is illegal (R42). -/
theorem illegalCommand_of_opcode_F {w : Word} (hop : opField w = 0xF#4) : IllegalCommand w := by
  refine illegalCommand_of_not_command fun c hc => ?_
  obtain ⟨fmt, build, hm, -⟩ := decode_ok_cases hc
  rw [hop] at hm
  cases hm

/-- GSEL with a selector above 1 is illegal (R42). -/
theorem illegalCommand_of_selector {w : Word} (hop : opField w = 0x6#4) (hsel : 2 ≤ (selField w).toNat) :
    IllegalCommand w := by
  refine illegalCommand_of_not_command fun c hc => ?_
  obtain ⟨-, -, -, -, hs, -⟩ := decode_ok_cases hc
  exact absurd (toNat_selField_lt (hs hop)) (Nat.not_lt.mpr hsel)

/-- Settles O16: a word that decodes is the word of its command and of no other word's; one that does not is
the word of no well-formed command. -/
theorem everyWordIsCommandOrIllegalCmd : Obligations.EveryWordIsCommandOrIllegalCmd := by
  refine ⟨fun w => illegalCommand_of_opcode_F, fun w => illegalCommand_of_selector, fun w => ?_⟩
  by_cases h : ∃ c, decode w = .ok c
  · obtain ⟨c, hd⟩ := h
    obtain ⟨hc, hw⟩ := decode_eq_ok_iff.mp hd
    exact .inl ⟨c, hc, hw, execWord_of_decode hd⟩
  · have hd : ∀ c, decode w ≠ .ok c := not_exists.mp h
    exact .inr ⟨fun c hc hw => hd c (decode_eq_ok_iff.mpr ⟨hc, hw⟩), illegalCommand_of_not_command hd⟩

/-! ### The spec's examples (R44) -/

/-- Settles O12, by running the decoder on each word. -/
theorem specWordsDecode : Obligations.SpecWordsDecode := by
  unfold Obligations.SpecWordsDecode
  decide

/-- Settles O13, by running the assembler on each line. -/
theorem assemblerReadsExamples : Obligations.AssemblerReadsExamples := by
  unfold Obligations.AssemblerReadsExamples
  decide

end Sys2Proof
end

section
/-!
PROOF. What holds of every command of spec/30_encoding.md: it has a next state from every state (R42, R90),
and its operand A is the immediate or `RES[4:0]` (R39).
-/

namespace Sys2Proof.Machine

/-- An operation that carries the port over has a next state from every state. -/
theorem CarriesPort.exists_next {f : State → StepResult} (h : CarriesPort f) (s : State) :
    ∃ t, f s = .next t := by
  obtain ⟨t, ht⟩ := h s
  exact ⟨_, ht s.port⟩

/-- So has every action of the host (R100). -/
theorem exists_performAction (a : HostAction) (s : State) : ∃ t, performAction a s = .next t := by
  cases a with
  | command w => exact (carriesPort_execWord w).exists_next s
  | read r => exact ⟨s, rfl⟩
  | reset => exact ⟨s.resetUnit, rfl⟩

/-- Settles O5: every command and every word carries the port over, so it has a next state, and a step is one
action or waiting. -/
theorem nothingStopsTheUnit : Obligations.NothingStopsTheUnit := by
  refine ⟨fun c => (carriesPort_exec c).exists_next, fun w => (carriesPort_execWord w).exists_next,
    fun s => ?_⟩
  cases hp : s.port with
  | nil => exact ⟨s, step_of_idle hp⟩
  | cons a rest =>
    rw [step_of_action hp]
    exact exists_performAction a _

/-- `RES[4:0]` as bits of `RES` (R39). -/
theorem resElem_eq_extractLsb' (s : State) : s.resElem = s.res.extractLsb' 0 5 :=
  BitVec.setWidth_eq_extractLsb' (by decide)

/-- Settles O17: `operandA` does not read the ignored field, and an S = 1 word is its command's word. -/
theorem operandASelection : Obligations.OperandASelection :=
  ⟨fun _ _ => rfl, fun _ => resElem_eq_extractLsb', fun _ _ _ _ => ⟨rfl, rfl⟩,
    fun _ _ _ => ⟨rfl, rfl, rfl⟩,
    fun a b => ⟨decode_encode (c := .fadd (.res a) b) rfl, decode_encode (c := .fmul (.res a) b) rfl⟩,
    fun a => ⟨decode_encode (c := .finv (.res a)) rfl, decode_encode (c := .fe2c (.res a)) rfl,
      decode_encode (c := .pstep (.res a)) rfl⟩⟩

end Sys2Proof.Machine
end

section
/-!
PROOF. The pseudo-instructions (spec/30_encoding.md R45) as runs of commands: loading a generator, feeding a
sequence, and FEED and LDI. A run of feeding commands is stated for any feeding command, so that it serves
every expansion.
-/

namespace Sys2Proof.Machine

/-! ### Runs of commands (R101) -/

/-- A run of commands goes on from the next state of its first command. -/
theorem runInstrs_cons_of_exec {c : Instr} {s t : State} (h : exec c s = .next t) (cs : List Instr) :
    runInstrs (c :: cs) s = runInstrs cs t := by
  rw [runInstrs, h]

/-- The second part of a run goes on from the next state of the first. -/
theorem runInstrs_append {cs : List Instr} {s t : State} (h : runInstrs cs s = .next t)
    (ds : List Instr) : runInstrs (cs ++ ds) s = runInstrs ds t := by
  induction cs generalizing s with
  | nil => cases h; rfl
  | cons c cs ih =>
    cases hc : exec c s with
    | next u =>
      rw [runInstrs_cons_of_exec hc] at h
      rw [List.cons_append, runInstrs_cons_of_exec hc, ih h]
    | fault r => simp [runInstrs, hc] at h
    | refused r => simp [runInstrs, hc] at h

/-! ### Feeding a sequence (R67, R68) -/

/-- The steps of the unit's register for a sequence of inputs, in order. -/
def State.feedAll (s : State) (vs : List Fe) : State := vs.foldl State.feed s

theorem State.feedAll_cons (s : State) (v : Fe) (vs : List Fe) :
    s.feedAll (v :: vs) = (s.feed v).feedAll vs := rfl

/-- Feeding writes `ACC` only. -/
theorem State.feedAll_eq (s : State) (vs : List Fe) :
    s.feedAll vs = { s with acc := (s.feedAll vs).acc } := by
  induction vs generalizing s with
  | nil => rfl
  | cons v vs ih => rw [feedAll_cons, ih]; rfl

@[simp] theorem State.feedAll_res (s : State) (vs : List Fe) : (s.feedAll vs).res = s.res := by
  rw [feedAll_eq]
@[simp] theorem State.feedAll_status (s : State) (vs : List Fe) :
    (s.feedAll vs).status = s.status := by
  rw [feedAll_eq]
@[simp] theorem State.feedAll_echr (s : State) (vs : List Fe) : (s.feedAll vs).echr = s.echr := by
  rw [feedAll_eq]
@[simp] theorem State.feedAll_glen (s : State) (vs : List Fe) : (s.feedAll vs).glen = s.glen := by
  rw [feedAll_eq]
@[simp] theorem State.feedAll_gen (s : State) (vs : List Fe) : (s.feedAll vs).gen = s.gen := by
  rw [feedAll_eq]
@[simp] theorem State.feedAll_port (s : State) (vs : List Fe) : (s.feedAll vs).port = s.port := by
  rw [feedAll_eq]

/-- Fed a sequence, the register holds what the sequence register steps to (R68). -/
theorem accSeq_feedAll (s : State) (vs : List Fe) (hs : GlenLegal s) :
    (s.feedAll vs).accSeq = vs.foldl (polyStep s.genSeq) s.accSeq := by
  induction vs generalizing s with
  | nil => rfl
  | cons v vs ih => rw [State.feedAll_cons, ih (s.feed v) hs, accSeq_feed s v hs]; rfl

/-- Feeding leaves the elements from `GLEN` on alone (R67). -/
theorem accTailZero_feedAll {s : State} (vs : List Fe) (hs : AccTailZero s) :
    AccTailZero (s.feedAll vs) := by
  induction vs generalizing s with
  | nil => exact hs
  | cons v vs ih => exact ih fun k hk hg => (fileGet_feed_of_le s v hk hg).trans (hs k hk hg)

/-- `complete()` twice is `complete()` once (R88). -/
@[simp] theorem State.complete_complete (s : State) : s.complete.complete = s.complete := by
  rw [State.complete, State.complete, statusCompleted_idem]

/-- A run of feeding commands feeds their elements in order, from a state in which a command has completed
(R71, R79, R80). -/
theorem runInstrs_map_feeding {α : Type} {cmd : α → Instr} {elem : α → Fe}
    (hcmd : ∀ (a : α) (s : State), s.glen ≠ 0#5 → exec (cmd a) s = .next (s.feed (elem a)).complete)
    (xs : List α) {s : State} (hg : s.glen ≠ 0#5) :
    runInstrs (xs.map cmd) s.complete = .next (s.feedAll (xs.map elem)).complete := by
  induction xs generalizing s with
  | nil => rfl
  | cons a xs ih =>
    have hfirst : exec (cmd a) s.complete = .next (s.feed (elem a)).complete.complete :=
      hcmd a s.complete hg
    rw [State.complete_complete] at hfirst
    rw [List.map_cons, runInstrs_cons_of_exec hfirst, ih (s := s.feed (elem a)) hg]
    rfl

/-- `PSTEP v` feeds v (R71). -/
theorem exec_pstep_imm (v : Fe) (s : State) (hg : s.glen ≠ 0#5) :
    exec (.pstep (.imm v)) s = .next (s.feed v).complete := exec_of_effect (.pstep hg)

/-! ### Loading a generator (R45, R64 to R66) -/

/-- Writing the element after a list's end extends the list (R66). -/
theorem fileSet_fileOfList (g : List Fe) (v : Fe) (h : g.length < 16) :
    fileSet (fileOfList g) (BitVec.ofNat 4 g.length) v = fileOfList (g ++ [v]) := by
  have hidx : (BitVec.ofNat 4 g.length).toNat = g.length := Nat.mod_eq_of_lt h
  apply file_ext
  intro k hk
  rw [fileGet_fileSet, hidx, fileGet_fileOfList, fileGet_fileOfList, if_pos hk, if_pos hk]
  rcases Nat.lt_trichotomy k g.length with hlt | rfl | hgt
  · rw [if_neg hlt.ne, List.getD_append _ _ _ _ hlt]
  · simp
  · rw [if_neg hgt.ne', List.getD_eq_default _ _ hgt.le, List.getD_eq_default _ _ (by simp; omega)]

/-- GWR of the next coefficient extends the coefficients loaded so far (R66). -/
theorem exec_gwr_loadGenerator (s : State) (len : BitVec 5) (pre : List Fe) (v : Fe)
    (h : pre.length < 16) :
    exec (.gwr (BitVec.ofNat 4 pre.length) v) (s.loadGenerator len pre).complete =
      .next (s.loadGenerator len (pre ++ [v])).complete := by
  have hgwr : exec (.gwr (BitVec.ofNat 4 pre.length) v) (s.loadGenerator len pre).complete =
      .next ({ s.loadGenerator len pre with
        gen := fileSet (fileOfList pre) (BitVec.ofNat 4 pre.length) v } : State).complete.complete := rfl
  rw [hgwr, fileSet_fileOfList pre v h, State.complete_complete]
  rfl

/-- The GWR writes of a custom load extend the coefficients loaded so far (R66). -/
theorem runInstrs_gwrFrom (s : State) (len : BitVec 5) (pre g : List Fe)
    (h : pre.length + g.length ≤ 16) :
    runInstrs (gwrFrom pre.length g) (s.loadGenerator len pre).complete =
      .next (s.loadGenerator len (pre ++ g)).complete := by
  induction g generalizing pre with
  | nil => rw [List.append_nil]; rfl
  | cons v g ih =>
    rw [List.length_cons] at h
    have hrest := ih (pre ++ [v]) (by simp; omega)
    rw [List.length_append, List.length_singleton, List.append_assoc, List.singleton_append] at hrest
    rw [gwrFrom, runInstrs_cons_of_exec (exec_gwr_loadGenerator s len pre v (by omega)), hrest]

/-- The lengths of the generators that `POLYMOD` and `HRPRES` are given (R61). -/
theorem length_generatorOf {choice : GenChoice}
    (hc : ∀ g, choice = .custom g → 1 ≤ g.length ∧ g.length ≤ 16) :
    1 ≤ (generatorOf choice).length ∧ (generatorOf choice).length ≤ 16 := by
  cases choice with
  | codex32 | bech32 => decide
  | custom g => exact hc g rfl

/-- The state with the chosen generator and its length loaded, and `ACC` cleared. -/
def State.withGenerator (s : State) (choice : GenChoice) : State :=
  s.loadGenerator (BitVec.ofNat 5 (generatorOf choice).length) (generatorOf choice)

/-- The load commands load the chosen generator and its length, and clear `ACC` (R45, R64, R65). -/
theorem runInstrs_loadCommands {choice : GenChoice}
    (hc : ∀ g, choice = .custom g → 1 ≤ g.length ∧ g.length ≤ 16) (s : State) :
    runInstrs (loadCommands choice) s = .next (s.withGenerator choice).complete := by
  cases choice with
  | codex32 | bech32 => rfl
  | custom g =>
    obtain ⟨h1, h16⟩ := hc g rfl
    have hlen : (BitVec.ofNat 5 g.length).toNat = g.length := Nat.mod_eq_of_lt (by omega)
    have hset : exec (.gset (BitVec.ofNat 5 g.length)) s =
        .next (s.loadGenerator (BitVec.ofNat 5 g.length) []).complete :=
      exec_of_effect (.gset (by omega) (by omega))
    rw [loadCommands, runInstrs_cons_of_exec hset]
    exact runInstrs_gwrFrom s _ [] g (by simpa using h16)

/-! ### A freshly loaded generator, and what feeding it computes -/

section
variable {choice : GenChoice} (hc : ∀ g, choice = .custom g → 1 ≤ g.length ∧ g.length ≤ 16) (s : State)
include hc

theorem toNat_glen_withGenerator :
    (s.withGenerator choice).glen.toNat = (generatorOf choice).length :=
  Nat.mod_eq_of_lt (by have := length_generatorOf hc; omega)

theorem glen_withGenerator_ne_zero : (s.withGenerator choice).glen ≠ 0#5 := by
  intro h0
  have hlen := toNat_glen_withGenerator hc s
  rw [h0, BitVec.toNat_ofNat] at hlen
  have := (length_generatorOf hc).1
  omega

theorem glenLegal_withGenerator : GlenLegal (s.withGenerator choice) :=
  (toNat_glen_withGenerator hc s).trans_le (length_generatorOf hc).2

/-- The loaded coefficients are the generator's. -/
theorem genSeq_withGenerator : (s.withGenerator choice).genSeq = generatorOf choice := by
  rw [State.genSeq, toNat_glen_withGenerator hc s]
  exact take_fileOfList _ (length_generatorOf hc).2

/-- The register is cleared. -/
theorem accSeq_withGenerator :
    (s.withGenerator choice).accSeq = List.replicate (generatorOf choice).length 0#5 := by
  rw [State.accSeq, toNat_glen_withGenerator hc s]
  exact take_zeroFile _ (length_generatorOf hc).2

/-- Fed a sequence, the register holds `polymod` of it (R68). -/
theorem accSeq_feedAll_withGenerator (vs : List Fe) :
    ((s.withGenerator choice).feedAll vs).accSeq = polymod vs (generatorOf choice) := by
  rw [accSeq_feedAll _ vs (glenLegal_withGenerator hc s), genSeq_withGenerator hc s,
    accSeq_withGenerator hc s, polymod]

/-- `POLYMOD` loads the generator and feeds the sequence (R45). -/
theorem runInstrs_pseudoPolymod (vs : List Fe) :
    runInstrs (pseudoPolymod choice vs) s = .next ((s.withGenerator choice).feedAll vs).complete := by
  have hfeed := runInstrs_map_feeding exec_pstep_imm vs (glen_withGenerator_ne_zero hc s)
  rw [List.map_id'] at hfeed
  rw [pseudoPolymod, runInstrs_append (runInstrs_loadCommands hc s), hfeed]

end

theorem State.genSeq_complete (s : State) : s.complete.genSeq = s.genSeq := rfl

/-- Settles O52: `POLYMOD`'s commands load the generator and feed the sequence into the cleared register. -/
theorem polymodCommandsComputePolymod : Obligations.PolymodCommandsComputePolymod := by
  intro choice seq s hc
  have hacc := accSeq_feedAll_withGenerator hc s seq
  have hlegal : GlenLegal ((s.withGenerator choice).feedAll seq) := by
    simpa using glenLegal_withGenerator hc s
  have hnlen := length_residue _ hlegal
  rw [State.residue, hacc] at hnlen
  refine ⟨_, runInstrs_pseudoPolymod hc s seq, hacc, ?_, ?_, ?_, hnlen.symm, ?_, ?_⟩
  · rw [State.genSeq_complete, State.genSeq, State.feedAll_gen, State.feedAll_glen]
    exact genSeq_withGenerator hc s
  · rw [State.complete_glen, State.feedAll_glen, toNat_glen_withGenerator hc s]
  · exact accTailZero_feedAll seq fun k _ _ => fileGet_zeroFile k
  · simp [State.withGenerator]
  · simp [Completes, State.withGenerator]

/-! ### `FEED` and `LDI` (R45, R98) -/

/-- Adding 0 changes nothing (R47). -/
theorem feAdd_zero (a : Fe) : feAdd a 0#5 = a := BitVec.xor_zero

/-- `elem_of` gives back the row of a code, over every table of distinct codes (R60). -/
theorem elemOf_charOf {table : Vector Byte 32} (hd : table.toList.Nodup) (v : Fe) :
    elemOf table (charOf table v) = some v := by
  have hidx : table.toList.idxOf? (charOf table v) = some v.toNat := by
    rw [List.idxOf?_eq_some_iff]
    have hv : v.toNat < table.toList.length := by simpa using v.isLt
    have hrow : table.toList[v.toNat] = charOf table v := by simp [charOf]
    exact ⟨hv, hrow, fun j hj heq => hj.ne (hd.getElem_inj_iff.mp (heq.trans hrow.symm))⟩
  rw [elemOf, hidx, Option.map_some, BitVec.ofNat_toNat, BitVec.setWidth_eq]

/-- `PSTEP RES` feeds `RES[4:0]` as it stands (R39, R71). -/
theorem exec_pstep_res (a : Fe) (s : State) (hg : s.glen ≠ 0#5) :
    exec (.pstep (.res a)) s = .next (s.feed s.resElem).complete := exec_of_effect (.pstep hg)

theorem State.resElem_complete (s : State) : s.complete.resElem = s.resElem := rfl

/-- An element written to `RES` is what `RES[4:0]` reads (R15, R39). -/
theorem resElem_setResElem (s : State) (v : Fe) : (s.setResElem v).resElem = v := by
  simp [State.resElem]

/-- Settles O60: C2FE leaves the value, or the old `RES` and the error, and PSTEP feeds what `RES` holds. -/
theorem feedHazard : Obligations.FeedHazard := by
  refine ⟨fun v s hg => ?_, fun c s hg hc => ?_, fun a s => ?_⟩
  · have hconv : exec (.c2fe (charOf unitParams.alphabet v)) s = .next (s.setResElem v).complete :=
      exec_of_effect (.c2fe (elemOf_charOf (by decide) v))
    have hstep : exec (.pstep (.res 0#5)) (s.setResElem v).complete =
        .next ((s.setResElem v).complete.feed v).complete := by
      rw [exec_pstep_res 0#5 (s.setResElem v).complete hg, State.resElem_complete, resElem_setResElem]
    refine ⟨_, (runInstrs_cons_of_exec hconv _).trans (runInstrs_cons_of_exec hstep []), ?_⟩
    simp [Completes]
  · have hconv : exec (.c2fe c) s = .next (s.raiseError (.invalidChar c)) :=
      exec_of_errorCause (.invalidChar ((elemOf_eq_none_iff _ c).mpr hc))
    have hstep : exec (.pstep (.res 0#5)) (s.raiseError (.invalidChar c)) =
        .next ((s.raiseError (.invalidChar c)).feed s.resElem).complete := exec_pstep_res 0#5 _ hg
    refine ⟨_, (runInstrs_cons_of_exec hconv _).trans (runInstrs_cons_of_exec hstep []), ?_⟩
    simp [resElem_eq_extractLsb', echrAfter]
  · have hadd : exec (.fadd (.imm a) 0#5) s = .next (s.setResElem (feAdd a 0#5)).complete := rfl
    refine ⟨_, runInstrs_cons_of_exec hadd [], ?_⟩
    simp [feAdd_zero, Completes, FilesKept]

end Sys2Proof.Machine
end

section
/-!
PROOF. GF(32) arithmetic (spec/40_field_alu.md R46 to R53). Both multipliers are additive in each operand, and
every element is a sum of single bits, so that a law of products need only be checked on single bits. Division
then follows from the powers of 2, which are all the nonzero elements.
-/

namespace Sys2Proof.Machine

/-! ### Addition (R46, R47) -/

theorem feAdd_comm (a b : Fe) : feAdd a b = feAdd b a := BitVec.xor_comm a b

theorem feAdd_assoc (a b c : Fe) : feAdd (feAdd a b) c = feAdd a (feAdd b c) := BitVec.xor_assoc a b c

theorem feAdd_self (a : Fe) : feAdd a a = 0#5 := BitVec.xor_self

theorem feAdd_feAdd_cancel_right (a b : Fe) : feAdd (feAdd a b) b = a := by
  rw [feAdd_assoc, feAdd_self, feAdd_zero]

/-- Settles O18, by the laws of exclusive-or. -/
theorem fieldAdditionLaws : Obligations.FieldAdditionLaws := fun a b c =>
  ⟨feAdd_comm a b, feAdd_assoc a b c, feAdd_zero a, feAdd_self a, feAdd_feAdd_cancel_right a b⟩

/-! ### Additive functions and single bits -/

/-- The elements with one bit set. -/
def bitElems : List Fe := [1#5, 2#5, 4#5, 8#5, 16#5]

/-- The single bits set in an element. -/
def bitsOf (a : Fe) : List Fe := bitElems.filter fun v => a &&& v = v

theorem foldr_feAdd_bitsOf (a : Fe) : (bitsOf a).foldr feAdd 0#5 = a := by
  revert a; decide

/-- What holds of single bits and of sums holds of every element. -/
theorem fe_induction {P : Fe → Prop} (hbit : ∀ v ∈ bitElems, P v)
    (hadd : ∀ a b, P a → P b → P (feAdd a b)) (a : Fe) : P a := by
  have h1 : P 1#5 := hbit 1#5 (by decide)
  have h0 : P 0#5 := hadd 1#5 1#5 h1 h1
  rw [← foldr_feAdd_bitsOf a]
  exact List.foldrRecOn _ _ h0 fun b hb v hv => hadd v b (hbit v (List.mem_of_mem_filter hv)) hb

/-- A function of elements that keeps sums. -/
def FeAdditive (f : Fe → Fe) : Prop := ∀ a b, f (feAdd a b) = feAdd (f a) (f b)

theorem FeAdditive.comp {f g : Fe → Fe} (hf : FeAdditive f) (hg : FeAdditive g) :
    FeAdditive fun a => f (g a) := fun a b => (congrArg f (hg a b)).trans (hf (g a) (g b))

theorem FeAdditive.map_zero {f : Fe → Fe} (hf : FeAdditive f) : f 0#5 = 0#5 := by
  have h : f 0#5 = feAdd (f 0#5) (f 0#5) := hf 0#5 0#5
  rwa [feAdd_self] at h

/-- Additive functions that agree on single bits are the same. -/
theorem FeAdditive.eq_of_bits {f g : Fe → Fe} (hf : FeAdditive f) (hg : FeAdditive g)
    (h : ∀ v ∈ bitElems, f v = g v) (a : Fe) : f a = g a := by
  induction a using fe_induction with
  | hbit v hv => exact h v hv
  | hadd a b ha hb => rw [hf, hg, ha, hb]

/-- So are functions of two operands that are additive in each of them. -/
theorem eq_of_bits₂ {f g : Fe → Fe → Fe} (hfl : ∀ b, FeAdditive fun a => f a b)
    (hfr : ∀ a, FeAdditive (f a)) (hgl : ∀ b, FeAdditive fun a => g a b) (hgr : ∀ a, FeAdditive (g a))
    (h : ∀ u ∈ bitElems, ∀ v ∈ bitElems, f u v = g u v) (a b : Fe) : f a b = g a b :=
  (hfl b).eq_of_bits (hgl b) (fun u hu => (hfr u).eq_of_bits (hgr u) (h u hu) b) a

/-! ### The datapath is additive in each operand (R49) -/

/-- One condition, two addends. -/
theorem xor_ite_same_cond {n : Nat} (c : Bool) (x y p q : BitVec n) :
    (if c then x ^^^ y ^^^ (p ^^^ q) else x ^^^ y) =
      (if c then x ^^^ p else x) ^^^ (if c then y ^^^ q else y) := by
  cases c
  · rfl
  · simp only [if_true]; ac_rfl

/-- Two conditions, one addend, which cancels when both hold. -/
theorem xor_ite_same_addend {n : Nat} (c d : Bool) (x y p : BitVec n) :
    (if (c ^^ d) then x ^^^ y ^^^ p else x ^^^ y) =
      (if c then x ^^^ p else x) ^^^ (if d then y ^^^ p else y) := by
  cases c <;> cases d
  case false.false => rfl
  case false.true => exact BitVec.xor_assoc x y p
  case true.false =>
    show x ^^^ y ^^^ p = x ^^^ p ^^^ y
    ac_rfl
  case true.true =>
    calc x ^^^ y = x ^^^ y ^^^ (p ^^^ p) := by rw [BitVec.xor_self, BitVec.xor_zero]
      _ = x ^^^ p ^^^ (y ^^^ p) := by ac_rfl

theorem feDouble_xor (t u : BitVec 6) : feDouble (t ^^^ u) = feDouble t ^^^ feDouble u := by
  simp only [feDouble, BitVec.shiftLeft_xor_distrib, BitVec.getLsbD_xor, xor_ite_same_addend]

theorem feMulRound_xor_right (a r r' : Fe) (t t' : BitVec 6) (k : Nat) :
    feMulRound a (r ^^^ r', t ^^^ t') k =
      ((feMulRound a (r, t) k).1 ^^^ (feMulRound a (r', t') k).1,
        (feMulRound a (r, t) k).2 ^^^ (feMulRound a (r', t') k).2) := by
  simp only [feMulRound, BitVec.setWidth_xor, xor_ite_same_cond, feDouble_xor]

theorem feMulRound_xor_left (a a' r r' : Fe) (t : BitVec 6) (k : Nat) :
    feMulRound (a ^^^ a') (r ^^^ r', t) k =
      ((feMulRound a (r, t) k).1 ^^^ (feMulRound a' (r', t) k).1, feDouble t) := by
  simp only [feMulRound, BitVec.getLsbD_xor, xor_ite_same_addend]

theorem foldl_feMulRound_xor_left (a a' : Fe) (ks : List Nat) (r r' : Fe) (t : BitVec 6) :
    (ks.foldl (feMulRound (a ^^^ a')) (r ^^^ r', t)).1 =
      (ks.foldl (feMulRound a) (r, t)).1 ^^^ (ks.foldl (feMulRound a') (r', t)).1 := by
  induction ks generalizing r r' t with
  | nil => rfl
  | cons k ks ih =>
    rw [List.foldl_cons, feMulRound_xor_left, ih]
    rfl

theorem foldl_feMulRound_xor_right (a : Fe) (ks : List Nat) (r r' : Fe) (t t' : BitVec 6) :
    (ks.foldl (feMulRound a) (r ^^^ r', t ^^^ t')).1 =
      (ks.foldl (feMulRound a) (r, t)).1 ^^^ (ks.foldl (feMulRound a) (r', t')).1 := by
  induction ks generalizing r r' t t' with
  | nil => rfl
  | cons k ks ih =>
    rw [List.foldl_cons, feMulRound_xor_right, ih]
    rfl

/-- `fe_mul` is additive in its left operand. -/
theorem feAdditive_feMul_left (b : Fe) : FeAdditive fun a => feMul a b := fun a a' =>
  foldl_feMulRound_xor_left a a' [0, 1, 2, 3, 4] 0#5 0#5 (b.setWidth 6)

/-- `fe_mul` is additive in its right operand (R51). -/
theorem feAdditive_feMul_right (a : Fe) : FeAdditive (feMul a) := fun b b' => by
  rw [feMul, feAdd, BitVec.setWidth_xor]
  exact foldl_feMulRound_xor_right a [0, 1, 2, 3, 4] 0#5 0#5 (b.setWidth 6) (b'.setWidth 6)

/-! ### The two separate stages (R50) -/

/-- The product stage is additive in each operand. -/
theorem clProduct_feAdd_left (a a' b : Fe) :
    clProduct (feAdd a a') b = clProduct a b ^^^ clProduct a' b :=
  List.foldl_hom₂ [0, 1, 2, 3, 4] (· ^^^ ·) _ _ _ 0#9 0#9 fun x y k => by
    simp only [feAdd, BitVec.getLsbD_xor, xor_ite_same_addend]

theorem clProduct_feAdd_right (a b b' : Fe) :
    clProduct a (feAdd b b') = clProduct a b ^^^ clProduct a b' :=
  List.foldl_hom₂ [0, 1, 2, 3, 4] (· ^^^ ·) _ _ _ 0#9 0#9 fun x y k => by
    simp only [feAdd, BitVec.setWidth_xor, BitVec.shiftLeft_xor_distrib, xor_ite_same_cond]

/-- The reduction stage is additive. -/
theorem foldl_reduceRound_xor (p q : BitVec 9) :
    [8, 7, 6, 5].foldl reduceRound (p ^^^ q) =
      [8, 7, 6, 5].foldl reduceRound p ^^^ [8, 7, 6, 5].foldl reduceRound q :=
  List.foldl_hom₂ [8, 7, 6, 5] (· ^^^ ·) _ _ _ p q fun x y k => by
    simp only [reduceRound, BitVec.getLsbD_xor, xor_ite_same_addend]

theorem feAdditive_feMulTwoStage_left (b : Fe) : FeAdditive fun a => feMulTwoStage a b := fun a a' => by
  simp only [feMulTwoStage, clProduct_feAdd_left, foldl_reduceRound_xor, BitVec.setWidth_xor]
  rfl

theorem feAdditive_feMulTwoStage_right (a : Fe) : FeAdditive (feMulTwoStage a) := fun b b' => by
  simp only [feMulTwoStage, clProduct_feAdd_right, foldl_reduceRound_xor, BitVec.setWidth_xor]
  rfl

/-- Settles O20: both sides are additive in each operand and agree on single bits. -/
theorem twoStageMultiplierAgrees : Obligations.TwoStageMultiplierAgrees :=
  eq_of_bits₂ feAdditive_feMulTwoStage_left feAdditive_feMulTwoStage_right feAdditive_feMul_left
    feAdditive_feMul_right (by decide)

/-! ### The laws of multiplication (R51) -/

theorem feMul_zero (a : Fe) : feMul a 0#5 = 0#5 := (feAdditive_feMul_right a).map_zero

theorem zero_feMul (a : Fe) : feMul 0#5 a = 0#5 := (feAdditive_feMul_left a).map_zero

theorem feMul_comm : ∀ a b : Fe, feMul a b = feMul b a :=
  eq_of_bits₂ feAdditive_feMul_left feAdditive_feMul_right feAdditive_feMul_right feAdditive_feMul_left
    (by decide)

theorem feMul_assoc_bits : ∀ u ∈ bitElems, ∀ v ∈ bitElems, ∀ w ∈ bitElems,
    feMul (feMul u v) w = feMul u (feMul v w) := by decide +kernel

/-- Both sides are additive in each of the three operands. -/
theorem feMul_assoc (a b c : Fe) : feMul (feMul a b) c = feMul a (feMul b c) := by
  have hbits (u : Fe) (hu : u ∈ bitElems) : ∀ b c, feMul (feMul u b) c = feMul u (feMul b c) :=
    eq_of_bits₂ (fun c => (feAdditive_feMul_left c).comp (feAdditive_feMul_right u))
      (fun b => feAdditive_feMul_right (feMul u b))
      (fun c => (feAdditive_feMul_right u).comp (feAdditive_feMul_left c))
      (fun b => (feAdditive_feMul_right u).comp (feAdditive_feMul_right b)) (feMul_assoc_bits u hu)
  exact ((feAdditive_feMul_left c).comp (feAdditive_feMul_left b)).eq_of_bits
    (feAdditive_feMul_left (feMul b c)) (fun u hu => hbits u hu b c) a

theorem feMul_one (a : Fe) : feMul a 1#5 = a := by
  revert a; decide

theorem one_feMul (a : Fe) : feMul 1#5 a = a := (feMul_comm 1#5 a).trans (feMul_one a)

/-! ### Powers (R51, R53) -/

theorem fePow_add (a : Fe) (m n : Nat) : fePow a (m + n) = feMul (fePow a m) (fePow a n) := by
  induction m with
  | zero => rw [Nat.zero_add, fePow, one_feMul]
  | succ m ih => rw [Nat.succ_add, fePow, fePow, ih, feMul_assoc]

theorem fePow_mul (a : Fe) (m n : Nat) : fePow a (m * n) = fePow (fePow a m) n := by
  induction n with
  | zero => rfl
  | succ n ih => rw [Nat.mul_succ, Nat.add_comm, fePow_add, fePow, ih]

theorem one_fePow (n : Nat) : fePow 1#5 n = 1#5 := by
  induction n with
  | zero => rfl
  | succ n ih => rw [fePow, ih, feMul_one]

theorem fePow_eq_foldr (a : Fe) (n : Nat) : fePow a n = (List.replicate n a).foldr feMul 1#5 := by
  induction n with
  | zero => rfl
  | succ n ih => rw [fePow, List.replicate_succ, List.foldr_cons, ih]

/-- Every nonzero element is a power of 2 (R51). -/
theorem exists_fePow_two_eq : ∀ a : Fe, a ≠ 0#5 → ∃ k < 31, fePow 2#5 k = a := by decide +kernel

theorem fePow_two_31 : fePow 2#5 31 = 1#5 := by decide +kernel

theorem fePow_two_ne_one : ∀ k < 31, 0 < k → fePow 2#5 k ≠ 1#5 := by decide

/-- The order of a nonzero element divides 31 (R51). -/
theorem fePow_31 {a : Fe} (ha : a ≠ 0#5) : fePow a 31 = 1#5 := by
  obtain ⟨k, -, rfl⟩ := exists_fePow_two_eq a ha
  rw [← fePow_mul, Nat.mul_comm, fePow_mul, fePow_two_31, one_fePow]

/-! ### Inversion (R53) -/

theorem feMul_feInv {a : Fe} (ha : a ≠ 0#5) : feMul a (feInv a) = 1#5 := fePow_31 ha

theorem feInv_feMul_cancel {a : Fe} (ha : a ≠ 0#5) (b : Fe) : feMul (feInv a) (feMul a b) = b := by
  rw [← feMul_assoc, feMul_comm (feInv a), feMul_feInv ha, one_feMul]

/-- The inverse of a nonzero element is unique (R53). -/
theorem feMul_eq_one_iff {a : Fe} (ha : a ≠ 0#5) (x : Fe) : feMul a x = 1#5 ↔ x = feInv a := by
  constructor
  · intro h
    rw [← feInv_feMul_cancel ha x, h, feMul_one]
  · rintro rfl
    exact feMul_feInv ha

theorem feInv_zero : feInv 0#5 = 0#5 := zero_feMul (fePow 0#5 29)

theorem feInv_ne_zero {a : Fe} (ha : a ≠ 0#5) : feInv a ≠ 0#5 := by
  intro h
  have hmul : feMul a (feInv a) = 1#5 := feMul_feInv ha
  rw [h, feMul_zero] at hmul
  cases hmul

theorem feInv_feInv {a : Fe} (ha : a ≠ 0#5) : feInv (feInv a) = a := by
  have hmul : feMul (feInv a) a = 1#5 := (feMul_comm _ _).trans (feMul_feInv ha)
  exact ((feMul_eq_one_iff (feInv_ne_zero ha) a).mp hmul).symm

theorem eq_zero_or_eq_zero_of_feMul_eq_zero {a b : Fe} (h : feMul a b = 0#5) : a = 0#5 ∨ b = 0#5 := by
  by_cases ha : a = 0#5
  · exact .inl ha
  · right
    rw [← feInv_feMul_cancel ha b, h, feMul_zero]

/-- The table of R53, by computing each 30th power. -/
theorem feInv_table : (List.range 32).map (fun n => (feInv (BitVec.ofNat 5 n)).toNat) =
    [0, 1, 20, 24, 10, 8, 12, 29, 5, 11, 4, 9, 6, 28, 26, 31,
      22, 18, 17, 23, 2, 25, 16, 19, 3, 21, 14, 30, 13, 7, 27, 15] := by decide +kernel

/-- Settles O21: the 31st power of a nonzero element is 1, so its 30th power is its only inverse. -/
theorem inversionIsUniqueInverse : Obligations.InversionIsUniqueInverse :=
  ⟨fun a => fePow_eq_foldr a 30, fun _ x ha => feMul_eq_one_iff ha x, feInv_zero, feInv_table⟩

/-- Settles O19: the laws hold on single bits and so on sums of them, and the powers of 2 are the nonzero
elements, which makes each of them invertible. -/
theorem fieldMultiplicationLaws : Obligations.FieldMultiplicationLaws :=
  ⟨fun a b c => ⟨feMul_comm a b, feMul_assoc a b c, feAdditive_feMul_right a b c, feMul_one a, feMul_zero a,
      eq_zero_or_eq_zero_of_feMul_eq_zero⟩,
    exists_fePow_two_eq, fePow_two_31, fePow_two_ne_one⟩

end Sys2Proof.Machine
end

section
/-!
PROOF. The field-element ALU (spec/40_field_alu.md R48, R52, R54): FADD, FMUL and FINV as words, and what each
writes and leaves unchanged.
-/

namespace Sys2Proof.Machine

/-! ### What the three commands share -/

/-- A completed write to `RES` keeps all that completion keeps (R15, R88). -/
theorem completes_setResElem (s : State) (v : Fe) : Completes s (s.setResElem v).complete := by
  simp [Completes]

theorem filesKept_setResElem (s : State) (v : Fe) : FilesKept s (s.setResElem v).complete :=
  ⟨rfl, rfl, rfl⟩

/-- Bit 10 is the reserved bit of format R2 (R41). -/
theorem and_reserved_r2_ne_zero {w : Word} (h : w.getLsbD 10 = true) : w &&& 0x0400#16 ≠ 0#16 := by
  intro hz
  have hbit : (w &&& 0x0400#16).getLsbD 10 = true := by simp [h]
  rw [hz] at hbit
  cases hbit

/-- The next state of FINV of a nonzero operand (R54). -/
theorem exec_finv {src : Src} {s : State} (h : operandA src s ≠ 0#5) :
    exec (.finv src) s = .next (s.setResElem (feInv (operandA src s))).complete :=
  exec_of_effect (.finv h)

/-- `FINV RES` inverts the element a completed command has just written (R39, R54). -/
theorem exec_finv_res_setResElem (a : Fe) (s : State) {v : Fe} (hv : v ≠ 0#5) :
    exec (.finv (.res a)) (s.setResElem v).complete =
      .next ((s.setResElem v).complete.setResElem (feInv v)).complete := by
  have hop : operandA (.res a) (s.setResElem v).complete = v := resElem_setResElem s v
  have h := exec_finv (src := .res a) (s := (s.setResElem v).complete) (by rwa [hop])
  rwa [hop] at h

/-! ### The obligations -/

/-- Settles O22: FADD's word and its reserved bit by the decoder's laws, its frame by the completed write. -/
theorem faddAddsIntoRes : Obligations.FaddAddsIntoRes :=
  ⟨fun a b => ⟨decode_encode (c := .fadd (.imm a) b) rfl, decode_encode (c := .fadd (.res a) b) rfl⟩,
    fun w hop h10 =>
      reservedBitsRaiseIllegalCmd w (0x1#4, 0x0400#16) (by simp) hop (and_reserved_r2_ne_zero h10),
    fun _ _ s => ⟨_, exec_of_effect .fadd, rfl, completes_setResElem s _, filesKept_setResElem s _⟩⟩

/-- Settles O23, as O22, with the products of R52 computed and those of 0 and 1 from the laws of R51. -/
theorem fmulMultipliesIntoRes : Obligations.FmulMultipliesIntoRes :=
  ⟨fun a b => ⟨decode_encode (c := .fmul (.imm a) b) rfl, decode_encode (c := .fmul (.res a) b) rfl⟩,
    fun w hop h10 =>
      reservedBitsRaiseIllegalCmd w (0x2#4, 0x0400#16) (by simp) hop (and_reserved_r2_ne_zero h10),
    ⟨by decide, by decide, by decide, fun a => ⟨feMul_one a, feMul_zero a, zero_feMul a⟩⟩,
    fun _ _ s => ⟨_, exec_of_effect .fmul, rfl, completes_setResElem s _, filesKept_setResElem s _⟩⟩

/-- Settles O24: a nonzero operand's inverse is itself nonzero, so a `FINV RES` after it inverts it back. -/
theorem finvInvertsOrRaisesInvZero : Obligations.FinvInvertsOrRaisesInvZero := by
  refine ⟨fun a => ⟨decode_encode (c := .finv (.imm a)) rfl, decode_encode (c := .finv (.res a)) rfl⟩,
    fun w hop hr => reservedBitsRaiseIllegalCmd w (0x3#4, 0x07E0#16) (by simp) hop hr,
    fun src s h0 => ⟨_, exec_of_errorCause (.invZero h0), recordsError_raiseError s .invZero⟩,
    fun src s h0 => ?_, ?_, ?_⟩
  · refine ⟨_, feInv (operandA src s), _, exec_finv h0, rfl, rfl, feMul_feInv h0,
      completes_setResElem s _, filesKept_setResElem s _,
      exec_finv_res_setResElem 0#5 s (feInv_ne_zero h0), ?_⟩
    rw [State.complete_res, State.setResElem_res, feInv_feInv h0]
  · exact ((feMul_eq_one_iff (by decide) 1#5).mp (by decide)).symm
  · exact ((feMul_eq_one_iff (by decide) 0x0B#5).mp (by decide)).symm

end Sys2Proof.Machine
end

section
/-!
PROOF. Character conversion (spec/41_char_conv.md R55 to R60): `char_of` and `elem_of` as inverses over a table,
and C2FE and FE2C as words, and what each writes and leaves unchanged.
-/

namespace Sys2Proof.Machine

/-! ### `char_of` and `elem_of` over a table (R56, R57, R60) -/

/-- `char_of(v)` is row `v` of the table (R56). -/
theorem getElem?_toList_eq_charOf (table : Vector Byte 32) (v : Fe) :
    table.toList[v.toNat]? = some (charOf table v) := by
  simp [charOf]

/-- The row `elem_of` answers holds the code it was asked for, whether or not the codes are distinct (R57). -/
theorem charOf_of_elemOf {table : Vector Byte 32} {v : Fe} {b : Byte} (h : elemOf table b = some v) :
    charOf table v = b := by
  obtain ⟨k, hk, rfl⟩ := Option.map_eq_some_iff.mp h
  obtain ⟨hlt, hrow, -⟩ := List.idxOf?_eq_some_iff.mp hk
  have hv : (BitVec.ofNat 5 k).toNat = k := Nat.mod_eq_of_lt (by simpa using hlt)
  simpa only [charOf, hv, Vector.getElem_toList] using hrow

/-- The unit's codes are distinct (R55). -/
theorem nodup_alphabet : unitParams.alphabet.toList.Nodup := by decide

/-- In the string as the source prints it, the `S` of row 20 is found in row 16 first (90_conflicts.md C1). -/
theorem elemOf_charOf_printed_alphabet :
    elemOf (unitParams.alphabet.set 20 0x53#8) (charOf (unitParams.alphabet.set 20 0x53#8) 20#5) =
      some 16#5 := by
  decide

/-- Settles O25: row and code determine each other over distinct codes, and the printed string sends row 20 to
row 16. -/
theorem characterRoundTrip : Obligations.CharacterRoundTrip := by
  refine ⟨fun table hd => ⟨elemOf_charOf hd, fun _ _ => charOf_of_elemOf, elemOf_eq_none_iff table⟩,
    nodup_alphabet, ?_⟩
  rw [elemOf_charOf_printed_alphabet]
  decide

/-! ### The commands (R58, R59) -/

/-- C2FE of the code in row `v` writes `v` (R58). -/
theorem exec_c2fe_charOf (v : Fe) (s : State) :
    exec (.c2fe (charOf unitParams.alphabet v)) s = .next (s.setResElem v).complete :=
  exec_of_effect (.c2fe (elemOf_charOf nodup_alphabet v))

/-- C2FE of a byte that is no code records it (R58). -/
theorem exec_c2fe_of_notMem {byte : Byte} (h : byte ∉ unitParams.alphabet.toList) (s : State) :
    exec (.c2fe byte) s = .next (s.raiseError (.invalidChar byte)) :=
  exec_of_errorCause (.invalidChar ((elemOf_eq_none_iff _ byte).mpr h))

/-- A completed write of a whole byte to `RES` keeps all that completion keeps (R15, R88). -/
theorem completes_setResByte (s : State) (b : Byte) : Completes s (s.setResByte b).complete := by
  simp [Completes]

theorem filesKept_setResByte (s : State) (b : Byte) : FilesKept s (s.setResByte b).complete :=
  ⟨rfl, rfl, rfl⟩

/-- Settles O27: a byte is the code of a row or of none, and C2FE has one answer for each. -/
theorem c2feConvertsOrRaisesInvalidChar : Obligations.C2feConvertsOrRaisesInvalidChar :=
  ⟨fun byte => decode_encode (c := .c2fe byte) rfl,
    fun w hop hr => reservedBitsRaiseIllegalCmd w (0x4#4, 0x0F00#16) (by simp) hop hr,
    fun byte s hb => ⟨_, exec_c2fe_of_notMem hb s, recordsError_raiseError s (.invalidChar byte)⟩,
    fun v s => ⟨_, exec_c2fe_charOf v s, rfl, completes_setResElem s v, filesKept_setResElem s v⟩⟩

/-- Settles O28: every element has a row, so FE2C completes in every state with that row's code. -/
theorem fe2cWritesCharacterCode : Obligations.Fe2cWritesCharacterCode :=
  ⟨fun a => ⟨decode_encode (c := .fe2c (.imm a)) rfl, decode_encode (c := .fe2c (.res a)) rfl⟩,
    fun w hop hr => reservedBitsRaiseIllegalCmd w (0x5#4, 0x07E0#16) (by simp) hop hr,
    fun src s => ⟨_, exec_of_effect .fe2c, getElem?_toList_eq_charOf _ (operandA src s),
      completes_setResByte s _, filesKept_setResByte s _⟩⟩

end Sys2Proof.Machine
end

section
/-!
PROOF. Generator selection and loading (spec/42_generator.md R62 to R66): GSEL, GSET and GWR as words, and what
each writes and leaves unchanged; and the values of the built-in generators.
-/

namespace Sys2Proof.Machine

/-! ### A loaded generator (R64, R65) -/

/-- A completed load keeps all that completion keeps (R88). -/
theorem completes_loadGenerator (s : State) (len : BitVec 5) (g : List Fe) :
    Completes s (s.loadGenerator len g).complete := by
  simp [Completes]

/-- A completed load has cleared `ACC`. -/
theorem fileGet_acc_loadGenerator_complete (s : State) (len : BitVec 5) (g : List Fe) (k : Nat) :
    fileGet (s.loadGenerator len g).complete.acc k = 0#5 := fileGet_zeroFile k

/-- A list made from a vector has the vector's elements, and 0 past its end. -/
theorem getD_toList {n : Nat} (g : Vector Fe n) (k : Nat) :
    g.toList.getD k 0#5 = if h : k < n then g[k] else 0#5 := by
  split
  case isTrue h => simp [h]
  case isFalse h => exact List.getD_eq_default _ _ (by simpa using h)

/-- `GEN` after a load of a built-in generator: its elements and then 0 (R64). -/
theorem fileGet_gen_loadGenerator_toList (s : State) (len : BitVec 5) {n : Nat} (g : Vector Fe n) {k : Nat}
    (hk : k < 16) :
    fileGet (s.loadGenerator len g.toList).complete.gen k = if h : k < n then g[k] else 0#5 :=
  (fileGet_loadGenerator_complete s len g.toList hk).trans (getD_toList g k)

/-- Settles O29: both selectors complete a load, and every other word of opcode 6 has a reserved bit or a high
selector. -/
theorem gselLoadsGeneratorAndClearsAcc : Obligations.GselLoadsGeneratorAndClearsAcc :=
  ⟨⟨decode_encode (c := .gsel 0#2) rfl, decode_encode (c := .gsel 1#2) rfl⟩,
    fun w hop hw => hw.elim (reservedBitsRaiseIllegalCmd w (0x6#4, 0x0FFC#16) (by simp) hop)
      (illegalCommand_of_selector hop),
    fun s => ⟨_, exec_of_effect .gselCodex32, rfl, fun _ => fileGet_gen_loadGenerator_toList s 13#5 _,
      fun k _ => fileGet_acc_loadGenerator_complete s _ _ k, rfl, completes_loadGenerator s _ _⟩,
    fun s => ⟨_, exec_of_effect .gselBech32, rfl, fun _ => fileGet_gen_loadGenerator_toList s 6#5 _,
      fun k _ => fileGet_acc_loadGenerator_complete s _ _ k, rfl, completes_loadGenerator s _ _⟩⟩

/-- Settles O31: a length is refused or loads the empty list, which leaves all of `GEN` 0. -/
theorem gsetSetsLengthOrRaisesBadLen : Obligations.GsetSetsLengthOrRaisesBadLen :=
  ⟨fun len => decode_encode (c := .gset len) rfl,
    fun w hop hr => reservedBitsRaiseIllegalCmd w (0x7#4, 0x0FE0#16) (by simp) hop hr,
    fun _ s hl => ⟨_, exec_of_errorCause (.badLen hl), recordsError_raiseError s .badLen⟩,
    fun len s h1 h16 => ⟨_, exec_of_effect (.gset h1 h16), rfl,
      fun k hk => ⟨fileGet_loadGenerator_complete s len [] hk, fileGet_acc_loadGenerator_complete s len [] k⟩,
      rfl, completes_loadGenerator s len []⟩⟩

/-! ### One written coefficient (R66) -/

/-- A write at an index from `len` on is outside the first `len` elements. -/
theorem take_fileSet_of_le (f : ElemFile) (idx : BitVec 4) (v : Fe) {len : Nat} (h : len ≤ idx.toNat) :
    (fileSet f idx v).toList.take len = f.toList.take len := by
  rw [fileSet, Vector.toList_set, List.take_set_of_le h]

/-- Settles O32: GWR is one write into `GEN`, which the loaded generator does not reach from `GLEN` on. -/
theorem gwrWritesOneCoefficient : Obligations.GwrWritesOneCoefficient := by
  refine ⟨fun idx v => decode_encode (c := .gwr idx v) rfl,
    fun w hop hr => reservedBitsRaiseIllegalCmd w (0x8#4, 0x0E00#16) (by simp) hop hr,
    fun idx v s => ⟨_, exec_of_effect .gwr, fun k _ => fileGet_fileSet s.gen idx v k,
      take_fileSet_of_le s.gen idx v, rfl, rfl, rfl, ?_⟩⟩
  simp [Completes]

/-! ### The built-in generators (R62, R63) -/

/-- Settles O30, by multiplying out and packing each multiple. -/
theorem builtinGeneratorsMatchPublishedConstants :
    Obligations.BuiltinGeneratorsMatchPublishedConstants :=
  ⟨rfl, rfl, by decide, by decide⟩

end Sys2Proof.Machine
end

section
/-!
PROOF. Long division by a monic generator (spec/42_generator.md R61, spec/43_polymod.md R68). One step of the
sequence register takes the leading coefficient times the generator off the dividend, and that coefficient is
the only one that can be taken off; so quotient and remainder are determined coefficient by coefficient.
-/

namespace Sys2Proof.Machine

/-! ### Sums of coefficient sequences -/

theorem length_polyAdd (p q : List Fe) : (polyAdd p q).length = min p.length q.length :=
  List.length_zipWith

theorem polyAdd_cons (a b : Fe) (p q : List Fe) :
    polyAdd (a :: p) (b :: q) = feAdd a b :: polyAdd p q := rfl

theorem polyAdd_assoc (p q r : List Fe) : polyAdd (polyAdd p q) r = polyAdd p (polyAdd q r) := by
  induction p generalizing q r with
  | nil => rfl
  | cons a p ih =>
    match q, r with
    | [], _ => rfl
    | _ :: _, [] => rfl
    | b :: q, c :: r => simp only [polyAdd_cons, feAdd_assoc, ih]

theorem polyAdd_comm (p q : List Fe) : polyAdd p q = polyAdd q p :=
  List.zipWith_comm_of_comm feAdd_comm

theorem polyAdd_append {p p' : List Fe} (h : p.length = p'.length) (q q' : List Fe) :
    polyAdd (p ++ q) (p' ++ q') = polyAdd p p' ++ polyAdd q q' := List.zipWith_append h

/-- Zeros add nothing (R47). -/
theorem polyAdd_zeros (p : List Fe) : polyAdd p (List.replicate p.length 0#5) = p := by
  induction p with
  | nil => rfl
  | cons a p ih => rw [List.length_cons, List.replicate_succ, polyAdd_cons, feAdd_zero, ih]

theorem polyAdd_self (p : List Fe) : polyAdd p p = List.replicate p.length 0#5 := by
  induction p with
  | nil => rfl
  | cons a p ih => rw [polyAdd_cons, feAdd_self, ih]; rfl

theorem polyAdd_polyAdd_cancel_left {p q : List Fe} (h : p.length = q.length) :
    polyAdd p (polyAdd p q) = q := by
  rw [← polyAdd_assoc, polyAdd_self, h, polyAdd_comm, polyAdd_zeros]

/-- An addend goes over to the other side of an equation (R47: an element is its own negative). -/
theorem polyAdd_eq_iff {p q r : List Fe} (hq : p.length = q.length) (hr : p.length = r.length) :
    polyAdd p q = r ↔ q = polyAdd r p := by
  rw [polyAdd_comm r p]
  constructor
  · rintro rfl
    exact (polyAdd_polyAdd_cancel_left hq).symm
  · rintro rfl
    exact polyAdd_polyAdd_cancel_left hr

/-! ### Multiples of a monic polynomial -/

theorem length_polyScale (c : Fe) (p : List Fe) : (polyScale c p).length = p.length := List.length_map _

/-- The first coefficient of a multiple by `c` of a monic polynomial is `c` (R61). -/
theorem polyScale_monic (c : Fe) (g : List Fe) : polyScale c (1#5 :: g) = c :: polyScale c g := by
  rw [polyScale, List.map_cons, feMul_one]
  rfl

/-- A product by a monic polynomial begins with the other factor's first coefficient. -/
theorem polyMul_cons_monic (c : Fe) (q g : List Fe) :
    polyMul (c :: q) (1#5 :: g) =
      c :: polyAdd (polyScale c g ++ List.replicate q.length 0#5) (polyMul q (1#5 :: g)) := by
  rw [polyMul, polyScale_monic, List.cons_append, polyAdd_cons, feAdd_zero]

theorem length_polyMul_monic (q g : List Fe) : (polyMul q (1#5 :: g)).length = g.length + q.length := by
  induction q with
  | nil => simp [polyMul]
  | cons c q ih =>
    rw [polyMul_cons_monic, List.length_cons, length_polyAdd, ih, List.length_append, length_polyScale,
      List.length_replicate, Nat.min_self, List.length_cons]
    rfl

/-! ### One step of the division (R67, R68) -/

/-- A step drops the leading coefficient and adds its multiple of the generator to the rest (R67). The
register with the input appended has one for every length, 0 included (log entry 13). -/
theorem polyStep_eq_polyAdd {g p : List Fe} (h : p.length = g.length) (v : Fe) :
    polyStep g p v = polyAdd (p ++ [v]).tail (polyScale (p.headD v) g) := by
  cases p with
  | nil =>
    obtain rfl : g = [] := List.length_eq_zero_iff.mp h.symm
    rfl
  | cons c rest => exact (List.zipWith_map_right ..).symm

/-- A dividend is its leading coefficient, then what the step adds to, then the inputs still to come. -/
theorem append_cons_eq_headD_cons (p : List Fe) (v : Fe) (s : List Fe) :
    p ++ v :: s = p.headD v :: ((p ++ [v]).tail ++ s) := by
  cases p <;> simp

/-- The division equation: `q` times the monic polynomial of `g`, plus the remainder `r`, is the dividend. -/
def IsDivision (g q r dividend : List Fe) : Prop :=
  polyAdd (polyMul q (1#5 :: g)) (List.replicate q.length 0#5 ++ r) = dividend

/-- The equation without quotient coefficients says that the dividend is the remainder. -/
theorem isDivision_nil_iff {g r : List Fe} (hr : r.length = g.length) (p : List Fe) :
    IsDivision g [] r p ↔ r = p := by
  have hzeros : polyAdd (polyMul [] (1#5 :: g)) (List.replicate 0 0#5 ++ r) = r := by
    calc polyAdd (polyMul [] (1#5 :: g)) (List.replicate 0 0#5 ++ r)
      _ = polyAdd (List.replicate g.length 0#5) r := rfl
      _ = r := by rw [polyAdd_comm, ← hr, polyAdd_zeros]
  rw [IsDivision, List.length_nil, hzeros]

/-- One step of the division: the quotient's first coefficient is the dividend's, and the rest of the equation
is that of the stepped register and the inputs still to come. -/
theorem isDivision_cons_iff {g p q r s : List Fe} (hp : p.length = g.length) (hr : r.length = g.length)
    (hq : q.length = s.length) (c v : Fe) :
    IsDivision g (c :: q) r (p ++ v :: s) ↔
      c = p.headD v ∧ IsDivision g q r (polyStep g p v ++ s) := by
  have hlhs : polyAdd (polyMul (c :: q) (1#5 :: g)) (List.replicate (c :: q).length 0#5 ++ r) =
      c :: polyAdd (polyScale c g ++ List.replicate q.length 0#5)
        (polyAdd (polyMul q (1#5 :: g)) (List.replicate q.length 0#5 ++ r)) := by
    rw [polyMul_cons_monic, List.length_cons, List.replicate_succ, List.cons_append, polyAdd_cons,
      feAdd_zero, polyAdd_assoc]
  have hstep : polyAdd ((p ++ [v]).tail ++ s) (polyScale (p.headD v) g ++ List.replicate q.length 0#5) =
      polyStep g p v ++ s := by
    rw [polyAdd_append (by simp [hp, length_polyScale]), ← polyStep_eq_polyAdd hp, hq, polyAdd_zeros]
  rw [IsDivision, hlhs, append_cons_eq_headD_cons, List.cons_eq_cons]
  refine and_congr_right fun hc => ?_
  rw [hc, polyAdd_eq_iff, hstep, IsDivision]
  · simp only [length_polyAdd, length_polyMul_monic, length_polyScale, List.length_append,
      List.length_replicate, hr]
    omega
  · simp [length_polyScale, hp, hq]

/-! ### The whole division (R68) -/

/-- The quotient's coefficients: the leading coefficient before each step, from the register `p` on. -/
def polyQuotient (g : List Fe) : List Fe → List Fe → List Fe
  | _, [] => []
  | p, v :: s => p.headD v :: polyQuotient g (polyStep g p v) s

theorem length_polyQuotient (g p s : List Fe) : (polyQuotient g p s).length = s.length := by
  induction s generalizing p with
  | nil => rfl
  | cons v s ih => rw [polyQuotient, List.length_cons, List.length_cons, ih]

theorem length_foldl_polyStep {g p : List Fe} (hp : p.length = g.length) (s : List Fe) :
    (s.foldl (polyStep g) p).length = g.length := by
  induction s generalizing p with
  | nil => exact hp
  | cons v s ih => exact ih (length_polyStep g p v hp)

/-- The division of a register's content followed by inputs has one quotient and one remainder: what the steps
take off, and what they leave in the register. -/
theorem isDivision_iff {g p q r s : List Fe} (hp : p.length = g.length) (hr : r.length = g.length)
    (hq : q.length = s.length) :
    IsDivision g q r (p ++ s) ↔ q = polyQuotient g p s ∧ r = s.foldl (polyStep g) p := by
  induction s generalizing p q with
  | nil =>
    obtain rfl : q = [] := List.length_eq_zero_iff.mp hq
    rw [List.append_nil, isDivision_nil_iff hr]
    exact (and_iff_right rfl).symm
  | cons v s ih =>
    obtain ⟨c, q, rfl⟩ := List.exists_cons_of_length_eq_add_one hq
    have hq' : q.length = s.length := Nat.succ.inj hq
    rw [isDivision_cons_iff hp hr hq', ih (length_polyStep g p v hp) hq', polyQuotient, List.cons_eq_cons,
      and_assoc]
    rfl

theorem length_polymod (s g : List Fe) : (polymod s g).length = g.length :=
  length_foldl_polyStep List.length_replicate s

/-- From the cleared register, the remainder is `polymod` (R68). -/
theorem isDivision_polymod_iff {g q r s : List Fe} (hr : r.length = g.length) (hq : q.length = s.length) :
    IsDivision g q r (List.replicate g.length 0#5 ++ s) ↔
      q = polyQuotient g (List.replicate g.length 0#5) s ∧ r = polymod s g :=
  isDivision_iff List.length_replicate hr hq

/-- Settles O53: the quotient is what the steps take off, one coefficient per input. -/
theorem polymodIsLongDivision : Obligations.PolymodIsLongDivision := by
  intro s g
  have hq := length_polyQuotient g (List.replicate g.length 0#5) s
  have hdiv := (isDivision_polymod_iff (length_polymod s g) hq).mpr ⟨rfl, rfl⟩
  rw [IsDivision, hq] at hdiv
  exact ⟨length_polymod s g, _, hq, hdiv⟩

/-- Settles O54: the equation determines the quotient's coefficients in order, and then the remainder. -/
theorem polymodIsTheOnlyRemainder : Obligations.PolymodIsTheOnlyRemainder := by
  intro s g q r hq hr hdiv
  rw [← hq] at hdiv
  exact ((isDivision_polymod_iff hr hq).mp hdiv).2

end Sys2Proof.Machine
end

section
/-!
PROOF. `polymod` as a function of its input (spec/43_polymod.md R68, R75). A step of the sequence register is
additive in the register and the input together, which makes `polymod` linear; and with a nonzero constant
term it takes different registers to different ones, so that a difference in one symbol is never lost.
-/

namespace Sys2Proof.Machine

/-! ### Linearity (R68) -/

theorem polyAdd_polyAdd_polyAdd_comm (p q r t : List Fe) :
    polyAdd (polyAdd p q) (polyAdd r t) = polyAdd (polyAdd p r) (polyAdd q t) := by
  rw [polyAdd_assoc, ← polyAdd_assoc q, polyAdd_comm q, polyAdd_assoc r, ← polyAdd_assoc]

theorem polyScale_feAdd (c d : Fe) (g : List Fe) :
    polyScale (feAdd c d) g = polyAdd (polyScale c g) (polyScale d g) := by
  induction g with
  | nil => rfl
  | cons a g ih => exact congrArg₂ List.cons (feAdditive_feMul_left a c d) ih

theorem headD_polyAdd : ∀ {p q : List Fe} (v w : Fe), p.length = q.length →
    (polyAdd p q).headD (feAdd v w) = feAdd (p.headD v) (q.headD w)
  | [], [], _, _, _ => rfl
  | _ :: _, _ :: _, _, _, _ => rfl

/-- The sum of two registers, stepped with the sum of two inputs (R67). -/
theorem polyStep_polyAdd {g p q : List Fe} (hp : p.length = g.length) (hq : q.length = g.length)
    (v w : Fe) :
    polyStep g (polyAdd p q) (feAdd v w) = polyAdd (polyStep g p v) (polyStep g q w) := by
  have hpq : (polyAdd p q).length = g.length := by rw [length_polyAdd, hp, hq, Nat.min_self]
  have htail : (polyAdd p q ++ [feAdd v w]).tail = polyAdd (p ++ [v]).tail (q ++ [w]).tail := by
    have happend : polyAdd p q ++ [feAdd v w] = polyAdd (p ++ [v]) (q ++ [w]) :=
      (polyAdd_append (hp.trans hq.symm) [v] [w]).symm
    rw [happend]
    exact List.tail_zipWith
  rw [polyStep_eq_polyAdd hpq, polyStep_eq_polyAdd hp, polyStep_eq_polyAdd hq,
    headD_polyAdd v w (hp.trans hq.symm), htail, polyScale_feAdd, polyAdd_polyAdd_polyAdd_comm]

/-- So for a whole sequence of inputs. -/
theorem foldl_polyStep_polyAdd {g p q s t : List Fe} (hp : p.length = g.length)
    (hq : q.length = g.length) (hst : s.length = t.length) :
    (polyAdd s t).foldl (polyStep g) (polyAdd p q) =
      polyAdd (s.foldl (polyStep g) p) (t.foldl (polyStep g) q) := by
  induction s generalizing p q t with
  | nil =>
    obtain rfl : t = [] := List.length_eq_zero_iff.mp hst.symm
    rfl
  | cons v s ih =>
    obtain ⟨w, t, rfl⟩ := List.exists_cons_of_length_eq_add_one hst.symm
    rw [polyAdd_cons, List.foldl_cons, polyStep_polyAdd hp hq]
    exact ih (length_polyStep g p v hp) (length_polyStep g q w hq) (Nat.succ.inj hst)

/-- `polymod` of a sum is the sum (R68). -/
theorem polymod_polyAdd {s t : List Fe} (h : s.length = t.length) (g : List Fe) :
    polymod (polyAdd s t) g = polyAdd (polymod s g) (polymod t g) := by
  have hzeros : polyAdd (List.replicate g.length 0#5) (List.replicate g.length 0#5) =
      List.replicate g.length 0#5 := by rw [polyAdd_self, List.length_replicate]
  rw [polymod, ← hzeros]
  exact foldl_polyStep_polyAdd List.length_replicate List.length_replicate h

/-- Settles O55: each step is additive, and without inputs the register is as cleared. -/
theorem polymodIsLinear : Obligations.PolymodIsLinear :=
  ⟨fun _ _ g h => polymod_polyAdd h g, fun _ => rfl⟩

/-- `polymod` of zeros is zeros, since zeros are their own double. -/
theorem polymod_zeros (n : Nat) (g : List Fe) :
    polymod (List.replicate n 0#5) g = List.replicate g.length 0#5 := by
  have hdouble := polyAdd_self (List.replicate n 0#5)
  rw [List.length_replicate] at hdouble
  rw [← hdouble, polymod_polyAdd rfl, polyAdd_self, length_polymod]

/-! ### The normal form (R69) -/

theorem polyNormalize_zeros_append (n : Nat) (p : List Fe) :
    polyNormalize (List.replicate n 0#5 ++ p) = polyNormalize p := by
  induction n with
  | zero => rfl
  | succ n ih => exact ih

theorem zeros_append_polyNormalize (p : List Fe) :
    List.replicate (leadingZeros p) 0#5 ++ polyNormalize p = p := by
  induction p with
  | nil => rfl
  | cons v p ih =>
    by_cases hv : v = 0#5
    · subst hv
      exact congrArg (List.cons 0#5) ih
    · simp [leadingZeros, polyNormalize, hv]

/-- Among sequences of one length the normal form determines the sequence. -/
theorem polyNormalize_inj {p q : List Fe} (hlen : p.length = q.length) :
    polyNormalize p = polyNormalize q ↔ p = q := by
  refine ⟨fun h => ?_, congrArg polyNormalize⟩
  have hp := leadingZeros_add_length_polyNormalize p
  have hq := leadingZeros_add_length_polyNormalize q
  have hz : leadingZeros p = leadingZeros q := by rw [h] at hp; omega
  rw [← zeros_append_polyNormalize p, ← zeros_append_polyNormalize q, h, hz]

/-! ### A generator with a nonzero constant term (R75) -/

theorem feAdd_left_cancel {a b c : Fe} (h : feAdd a b = feAdd a c) : b = c :=
  (BitVec.xor_right_inj a).mp h

theorem feAdd_right_cancel {a b c : Fe} (h : feAdd a c = feAdd b c) : a = b :=
  (BitVec.xor_left_inj c).mp h

/-- A nonzero factor cancels (R51). -/
theorem feMul_right_cancel {a b c : Fe} (hc : c ≠ 0#5) (h : feMul a c = feMul b c) : a = b := by
  rw [feMul_comm a, feMul_comm b] at h
  rw [← feInv_feMul_cancel hc a, h, feInv_feMul_cancel hc]

theorem polyAdd_right_cancel {p q r : List Fe} (hp : p.length = r.length) (hq : q.length = r.length)
    (h : polyAdd p r = polyAdd q r) : p = q := by
  rw [polyAdd_comm p, polyAdd_comm q] at h
  rw [← polyAdd_polyAdd_cancel_left hp.symm, h, polyAdd_polyAdd_cancel_left hq.symm]

/-- A step of a nonempty register: shift in, and add the carry's multiple of the generator (R67). -/
theorem polyStep_cons (g rest : List Fe) (c v : Fe) :
    polyStep g (c :: rest) v = polyAdd (rest ++ [v]) (polyScale c g) := (List.zipWith_map_right ..).symm

/-- The last element of a stepped register holds the input and the carry times the constant term (R67). -/
theorem polyStep_concat {front rest : List Fe} (h : rest.length = front.length) (k c v : Fe) :
    polyStep (front ++ [k]) (c :: rest) v =
      polyAdd rest (polyScale c front) ++ [feAdd v (feMul c k)] := by
  have hscale : polyScale c (front ++ [k]) = polyScale c front ++ [feMul c k] := List.map_append
  rw [polyStep_cons, hscale]
  exact polyAdd_append (by rw [length_polyScale, h]) [v] [feMul c k]

section
variable {front p q : List Fe} {k : Fe} (hp : p.length = (front ++ [k]).length)
  (hq : q.length = (front ++ [k]).length)
include hp

/-- One register steps differently with different inputs. -/
theorem eq_of_polyStep_eq_input {v w : Fe}
    (h : polyStep (front ++ [k]) p v = polyStep (front ++ [k]) p w) : v = w := by
  rw [List.length_append] at hp
  obtain ⟨c, rest, rfl⟩ := List.exists_cons_of_length_eq_add_one hp
  have hrest : rest.length = front.length := Nat.succ.inj hp
  rw [polyStep_concat hrest, polyStep_concat hrest] at h
  obtain ⟨-, hlast⟩ := List.append_inj' h rfl
  exact feAdd_right_cancel (List.head_eq_of_cons_eq hlast)

include hq

/-- With a nonzero constant term, different registers step differently with one input: the last element gives
the carry back, and the carry gives back the rest. -/
theorem eq_of_polyStep_eq_register (hk : k ≠ 0#5) {v : Fe}
    (h : polyStep (front ++ [k]) p v = polyStep (front ++ [k]) q v) : p = q := by
  rw [List.length_append] at hp hq
  obtain ⟨c, rest, rfl⟩ := List.exists_cons_of_length_eq_add_one hp
  obtain ⟨d, rest', rfl⟩ := List.exists_cons_of_length_eq_add_one hq
  have hrest : rest.length = front.length := Nat.succ.inj hp
  have hrest' : rest'.length = front.length := Nat.succ.inj hq
  rw [polyStep_concat hrest, polyStep_concat hrest'] at h
  obtain ⟨hinit, hlast⟩ := List.append_inj' h rfl
  obtain rfl : c = d :=
    feMul_right_cancel hk (feAdd_left_cancel (List.head_eq_of_cons_eq hlast))
  have hscale : (polyScale c front).length = front.length := length_polyScale c front
  rw [polyAdd_right_cancel (hrest.trans hscale.symm) (hrest'.trans hscale.symm) hinit]

/-- So they do for any sequence of inputs. -/
theorem eq_of_foldl_polyStep_eq (hk : k ≠ 0#5) {s : List Fe}
    (h : s.foldl (polyStep (front ++ [k])) p = s.foldl (polyStep (front ++ [k])) q) : p = q := by
  induction s generalizing p q with
  | nil => exact h
  | cons v s ih =>
    exact eq_of_polyStep_eq_register hp hq hk
      (ih (length_polyStep _ p v hp) (length_polyStep _ q v hq) h)

end

theorem polymod_append (s t g : List Fe) :
    polymod (s ++ t) g = t.foldl (polyStep g) (polymod s g) := List.foldl_append

/-- Inputs with one `polymod` that differ in at most one symbol are the same (R75). -/
theorem eq_of_polymod_eq_at_symbol {before after front : List Fe} {k v w : Fe} (hk : k ≠ 0#5)
    (h : polymod (before ++ v :: after) (front ++ [k]) =
      polymod (before ++ w :: after) (front ++ [k])) : v = w := by
  rw [polymod_append, polymod_append, List.foldl_cons, List.foldl_cons] at h
  have hlen := length_polymod before (front ++ [k])
  exact eq_of_polyStep_eq_input hlen
    (eq_of_foldl_polyStep_eq (length_polyStep _ _ v hlen) (length_polyStep _ _ w hlen) hk h)

/-- Settles O56: zeros leave zeros, and a changed symbol leaves a different register, so a different normal
form. -/
theorem singleSymbolErrorChangesResidue : Obligations.SingleSymbolErrorChangesResidue := by
  refine ⟨fun n g => ?_, fun before after v w front k hk hne h => ?_, rfl, rfl⟩
  · rw [polymod_zeros, ← List.append_nil (List.replicate _ _), polyNormalize_zeros_append, polyNormalize]
  · rw [polyNormalize_inj (by rw [length_polymod, length_polymod])] at h
    exact hne (eq_of_polymod_eq_at_symbol hk h)

end Sys2Proof.Machine
end

section
/-!
PROOF. The shift register and its commands (spec/43_polymod.md R67, R70 to R74): PCLR, PSTEP, PPAD and PRD as
words, and what each writes and leaves unchanged; and the tests a caller makes of the residue.
-/

namespace Sys2Proof.Machine

/-! ### Stepping and clearing the register (R67, R70, R71) -/

/-- Settles O33, by the element the step computes at each index. -/
theorem shiftRegisterStep : Obligations.ShiftRegisterStep := by
  intro len gen acc v h1 h16
  refine ⟨fun k hk => ?_, ?_, fun k hk hk16 => ?_⟩
  · rw [fileGet_srStep _ _ _ _ _ (by omega), if_pos (by omega), if_pos hk]
  · rw [fileGet_srStep _ _ _ _ _ (by omega), if_pos (by omega), if_neg (by omega)]
  · rw [fileGet_srStep _ _ _ _ _ hk16, if_neg (by omega)]

/-- Settles O34: PCLR has one answer, which does not read `GLEN`. -/
theorem pclrClearsAcc : Obligations.PclrClearsAcc := by
  refine ⟨decode_encode (c := .pclr) rfl,
    fun w hop hr => reservedBitsRaiseIllegalCmd w (0x9#4, 0x0FFF#16) (by simp) hop hr,
    fun s => ⟨_, exec_of_effect .pclr, fun k _ => fileGet_zeroFile k, rfl, rfl, rfl, ?_⟩⟩
  simp [Completes]

/-- A completed sequence of steps keeps all that completion keeps (R88). -/
theorem completes_feedAll (s : State) (vs : List Fe) : Completes s (s.feedAll vs).complete := by
  simp [Completes]

/-- Settles O35: without a generator the error, with one the step. -/
theorem pstepFeedsOneElement : Obligations.PstepFeedsOneElement :=
  ⟨fun a => ⟨decode_encode (c := .pstep (.imm a)) rfl, decode_encode (c := .pstep (.res a)) rfl⟩,
    fun w hop hr => reservedBitsRaiseIllegalCmd w (0xA#4, 0x07E0#16) (by simp) hop hr,
    fun _ s hg => ⟨_, exec_eq_noGen (by simp [Instr.mnemonic]) hg, recordsError_raiseError s .noGen⟩,
    fun _ s hg => ⟨_, exec_of_effect (.pstep hg), by simp [Completes]⟩⟩

/-! ### PPAD (R72) -/

/-- The steps of PPAD feed a sequence of zeros. -/
theorem feedZeros_eq_feedAll (s : State) (n : Nat) :
    s.feedZeros n = s.feedAll (List.replicate n 0#5) := by
  induction n generalizing s with
  | zero => rfl
  | succ n ih => rw [State.feedZeros, ih, List.replicate_succ, State.feedAll_cons]

theorem exec_ppad {s : State} (hg : s.glen ≠ 0#5) :
    exec .ppad s = .next (s.feedAll (List.replicate s.glen.toNat 0#5)).complete := by
  rw [← feedZeros_eq_feedAll]
  exact exec_of_effect (.ppad hg)

/-- At least one PSTEP feeds its elements in order and completes, from every state with a generator (R71). -/
theorem runInstrs_map_pstep (v : Fe) (vs : List Fe) {s : State} (hg : s.glen ≠ 0#5) :
    runInstrs ((v :: vs).map fun a => .pstep (.imm a)) s = .next (s.feedAll (v :: vs)).complete := by
  have hrest := runInstrs_map_feeding exec_pstep_imm vs (s := s.feed v) hg
  rw [List.map_id'] at hrest
  rw [List.map_cons, runInstrs_cons_of_exec (exec_pstep_imm v s hg), hrest, State.feedAll_cons]

/-- `GLEN` commands `PSTEP 0` leave what PPAD leaves. -/
theorem runInstrs_replicate_pstep {s : State} (hg : s.glen ≠ 0#5) :
    runInstrs (List.replicate s.glen.toNat (.pstep (.imm 0#5))) s =
      .next (s.feedAll (List.replicate s.glen.toNat 0#5)).complete := by
  obtain ⟨n, hn⟩ := Nat.exists_eq_succ_of_ne_zero (BitVec.toNat_ne_iff_ne.mpr hg)
  have h := runInstrs_map_pstep 0#5 (List.replicate n 0#5) hg
  rwa [← List.replicate_succ, List.map_replicate, ← Nat.succ_eq_add_one, ← hn] at h

/-- While the carry is 0, a step only shifts (R67). -/
theorem polyStep_zero_cons {g rest : List Fe} (h : rest.length + 1 = g.length) (v : Fe) :
    polyStep g (0#5 :: rest) v = rest ++ [v] := by
  have hscale : polyScale 0#5 g = List.replicate (rest ++ [v]).length 0#5 := by
    rw [polyScale, funext zero_feMul, List.map_const', List.length_append, ← h]
    rfl
  rw [polyStep_cons, hscale, polyAdd_zeros]

/-- Inputs that fit in the zeros at the head of the register are shifted in unchanged. -/
theorem foldl_polyStep_zeros_append {g p s : List Fe} (h : s.length + p.length = g.length) :
    s.foldl (polyStep g) (List.replicate s.length 0#5 ++ p) = p ++ s := by
  induction s generalizing p with
  | nil => exact (List.append_nil p).symm
  | cons v s ih =>
    rw [List.length_cons] at h
    have hstep : polyStep g (List.replicate (s.length + 1) 0#5 ++ p) v =
        List.replicate s.length 0#5 ++ (p ++ [v]) := by
      rw [List.replicate_succ, List.cons_append, polyStep_zero_cons (by simp; omega), List.append_assoc]
    rw [List.foldl_cons, List.length_cons, hstep, ih (by simp; omega), List.append_assoc,
      List.singleton_append]

/-- A sequence of the generator's length is its own remainder (R68). -/
theorem polymod_of_length_eq {p g : List Fe} (h : p.length = g.length) : polymod p g = p := by
  have hshift := foldl_polyStep_zeros_append (g := g) (p := []) (s := p) h
  rwa [List.append_nil, h] at hshift

/-- Fed a sequence, the register holds `polymod` of its content followed by the sequence (R68). -/
theorem accSeq_feedAll_eq_polymod (s : State) (hs : GlenLegal s) (vs : List Fe) :
    (s.feedAll vs).accSeq = polymod (s.accSeq ++ vs) s.genSeq := by
  have hlen : s.accSeq.length = s.genSeq.length := by rw [length_accSeq s hs, length_genSeq s hs]
  rw [polymod_append, polymod_of_length_eq hlen, accSeq_feedAll s vs hs]

/-- Settles O36: PPAD and `GLEN` commands `PSTEP 0` both feed `GLEN` zeros. -/
theorem ppadIsGlenZeroSteps : Obligations.PpadIsGlenZeroSteps :=
  ⟨decode_encode (c := .ppad) rfl,
    fun w hop hr => reservedBitsRaiseIllegalCmd w (0xD#4, 0x0FFF#16) (by simp) hop hr,
    fun s hg => ⟨_, exec_eq_noGen (by simp [Instr.mnemonic]) hg, recordsError_raiseError s .noGen⟩,
    fun s hg => ⟨_, exec_ppad hg, runInstrs_replicate_pstep hg, s.feedAll_res _, s.feedAll_glen _,
      s.feedAll_gen _, completes_feedAll s _⟩,
    fun s hg hs => ⟨_, exec_ppad hg, accSeq_feedAll_eq_polymod s hs _⟩⟩

/-! ### PRD (R73) -/

/-- The next state of PRD in every state. -/
theorem exec_prd (idx : BitVec 4) (s : State) :
    exec (.prd false idx) s = .next (s.setResElem (s.normElem idx.toNat)).complete := rfl

theorem exec_prd_raw (idx : BitVec 4) (s : State) :
    exec (.prd true idx) s = .next (s.setResElem (s.rawElem idx.toNat)).complete := rfl

/-- What PRD reads is an element of the normalised residue, 0 from its end on (R69, R73). -/
theorem normElem_eq_getD_residue (s : State) (hs : GlenLegal s) (k : Nat) :
    s.normElem k = s.residue.getD k 0#5 := by
  have hlen := length_residue s hs
  by_cases hk : k < s.nlen
  · have hz := leadingZeros_add_nlen s hs
    have hfirst : s.glen.toNat - s.nlen = leadingZeros s.accSeq := by omega
    have hget : s.residue[k]? = some (fileGet s.acc (leadingZeros s.accSeq + k)) := by
      have hacc : leadingZeros s.accSeq + k < s.accSeq.length := by rw [length_accSeq s hs]; omega
      rw [State.residue, polyNormalize_eq_drop, List.getElem?_drop, List.getElem?_eq_getElem hacc,
        getElem_accSeq s hs]
    rw [State.normElem, if_pos hk, hfirst, List.getD_eq_getElem?_getD, hget, Option.getD_some]
  · rw [State.normElem, if_neg hk, List.getD_eq_default _ _ (by omega)]

/-- Settles O37: PRD writes one element and completes, whatever the index is. -/
theorem prdReadsResidue : Obligations.PrdReadsResidue :=
  ⟨fun idx => ⟨decode_encode (c := .prd false idx) rfl, decode_encode (c := .prd true idx) rfl⟩,
    fun w hop hr => reservedBitsRaiseIllegalCmd w (0xE#4, 0x0FE0#16) (by simp) hop hr,
    fun idx s => ⟨_, exec_prd_raw idx s, rfl, completes_setResElem s _, filesKept_setResElem s _⟩,
    fun idx s => ⟨_, exec_prd idx s, rfl, completes_setResElem s _, filesKept_setResElem s _⟩,
    fun idx s hs => ⟨_, exec_prd idx s,
      congrArg (BitVec.setWidth 8) (normElem_eq_getD_residue s hs idx.toNat)⟩⟩

/-! ### A caller's tests (R74) -/

/-- PRD 0 reads 1 exactly when the first element of the residue is 1. -/
theorem prd_zero_reads_one_iff {s : State} (hs : GlenLegal s) :
    (∃ t, exec (.prd false 0#4) s = .next t ∧ t.res = 1#8) ↔ s.residue.getD 0 0#5 = 1#5 := by
  have hwidth : ∀ v : Fe, v.setWidth 8 = 1#8 ↔ v = 1#5 := by decide
  rw [← hwidth, ← normElem_eq_getD_residue s hs]
  constructor
  · rintro ⟨t, ht, hres⟩
    rw [exec_prd] at ht
    cases ht
    exact hres
  · exact fun h => ⟨_, exec_prd 0#4 s, h⟩

theorem eq_singleton_iff_length_getD (p : List Fe) (v d : Fe) :
    p = [v] ↔ p.length = 1 ∧ p.getD 0 d = v := by
  constructor
  · rintro rfl
    exact ⟨rfl, rfl⟩
  · rintro ⟨hlen, hget⟩
    obtain ⟨a, rfl⟩ := List.length_eq_one_iff.mp hlen
    exact congrArg (fun x => [x]) hget

/-- The normal form is `[1]` exactly for zeros followed by a last element 1. -/
theorem polyNormalize_eq_one_iff {p : List Fe} {n : Nat} (h : p.length = n + 1) :
    polyNormalize p = [1#5] ↔ p = List.replicate n 0#5 ++ [1#5] := by
  have hone : polyNormalize (List.replicate n 0#5 ++ [1#5]) = [1#5] := polyNormalize_zeros_append n [1#5]
  have hinj : polyNormalize p = polyNormalize (List.replicate n 0#5 ++ [1#5]) ↔ _ :=
    polyNormalize_inj (by simp [h])
  rwa [hone] at hinj

/-- The same form, read from the register file element by element. -/
theorem accSeq_eq_zeros_concat_iff {s : State} (hs : GlenLegal s) {n : Nat} (hn : s.glen.toNat = n + 1)
    (v : Fe) :
    s.accSeq = List.replicate n 0#5 ++ [v] ↔ (∀ k < n, fileGet s.acc k = 0#5) ∧ fileGet s.acc n = v := by
  have hacc : s.accSeq = (List.ofFn fun k : Fin n => fileGet s.acc k) ++ [fileGet s.acc n] := by
    rw [State.accSeq, hn, take_file _ _ (hn ▸ hs), List.ofFn_succ_last]
    rfl
  rw [hacc, List.append_singleton_inj, ← List.ofFn_const, List.ofFn_inj, funext_iff, Fin.forall_iff]

/-- Settles O59: each test is a form of the residue `[1]`, and that is the bech32 target's normal form. -/
theorem callerVerdictTests : Obligations.CallerVerdictTests := by
  refine ⟨fun s hs hg => ⟨?_, ?_⟩, fun s => ?_⟩
  · rw [prd_zero_reads_one_iff hs, ← length_residue s hs]
    exact (eq_singleton_iff_length_getD _ _ _).symm
  · obtain ⟨n, hn⟩ := Nat.exists_eq_succ_of_ne_zero (BitVec.toNat_ne_iff_ne.mpr hg)
    rw [State.residue, polyNormalize_eq_one_iff ((length_accSeq s hs).trans hn),
      accSeq_eq_zeros_concat_iff hs hn, hn]
    simp
  · have htarget : polyNormalize bech32Target.toList = [1#5] := by decide
    simp [bech32Verdict, callerVerdict, htarget]

end Sys2Proof.Machine
end

section
/-!
PROOF. HRP feeding (spec/44_hrp.md): HHI and HLO as words and as steps (R79, R80), the command sequence of R81
as a run that feeds the expansion of R76, and the corners of R82. Each command of the sequence feeds its part
of the expansion, and the parts are put together as the expansion is.
-/

namespace Sys2Proof.Machine

/-! ### HHI and HLO (R79, R80) -/

/-- BYTE >> 5 is the byte's value divided by 32 (R79). -/
theorem hrpHigh_eq_ofNat (byte : Byte) : hrpHigh byte = BitVec.ofNat 5 (byte.toNat / 32) := by
  apply BitVec.eq_of_toNat_eq
  have hlt := byte.isLt
  rw [hrpHigh, BitVec.toNat_setWidth_of_le (by decide), BitVec.extractLsb'_toNat, BitVec.toNat_ofNat,
    Nat.shiftRight_eq_div_pow]
  omega

/-- BYTE & 0x1F is the rest (R80). -/
theorem hrpLow_eq_ofNat (byte : Byte) : hrpLow byte = BitVec.ofNat 5 (byte.toNat % 32) := by
  apply BitVec.eq_of_toNat_eq
  simp [hrpLow]

/-- Settles O39: without a generator the error, with one the step with the high three bits. -/
theorem hhiFeedsHighBits : Obligations.HhiFeedsHighBits := by
  refine ⟨fun byte => decode_encode (c := .hhi byte) rfl,
    fun w hop hr => reservedBitsRaiseIllegalCmd w (0xB#4, 0x0F00#16) (by simp) hop hr,
    fun _ s hg => ⟨_, exec_eq_noGen (by simp [Instr.mnemonic]) hg, recordsError_raiseError s .noGen⟩,
    fun byte s hg => ⟨_, exec_of_effect (.hhi hg), ?_, by simp [Completes]⟩⟩
  rw [State.complete_acc, State.feed_acc, hrpHigh_eq_ofNat]

/-- Settles O40: without a generator the error, with one the step with the low five bits. -/
theorem hloFeedsLowBits : Obligations.HloFeedsLowBits := by
  refine ⟨fun byte => decode_encode (c := .hlo byte) rfl,
    fun w hop hr => reservedBitsRaiseIllegalCmd w (0xC#4, 0x0F00#16) (by simp) hop hr,
    fun _ s hg => ⟨_, exec_eq_noGen (by simp [Instr.mnemonic]) hg, recordsError_raiseError s .noGen⟩,
    fun byte s hg => ⟨_, exec_of_effect (.hlo hg), ?_, by simp [Completes]⟩⟩
  rw [State.complete_acc, State.feed_acc, hrpLow_eq_ofNat]

/-! ### Runs that feed a sequence (R67, R81) -/

/-- With a generator of length `len` loaded and a command completed, the commands feed the sequence. -/
def Feeds (len : Nat) (cs : List Instr) (vs : List Fe) : Prop :=
  ∀ s : State, s.glen ≠ 0#5 → s.glen.toNat = len → runInstrs cs s.complete = .next (s.feedAll vs).complete

/-- One run after another feeds one sequence after the other. -/
theorem Feeds.append {len : Nat} {cs ds : List Instr} {vs ws : List Fe} (hc : Feeds len cs vs)
    (hd : Feeds len ds ws) : Feeds len (cs ++ ds) (vs ++ ws) := by
  intro s hg hlen
  have hrest := hd (s.feedAll vs) (by simpa using hg) (by simpa using hlen)
  rw [runInstrs_append (hc s hg hlen), hrest, State.feedAll, State.feedAll, State.feedAll, List.foldl_append]

/-- A command that feeds an element, given for each item of a list, feeds the items' elements. -/
theorem feeds_map {α : Type} {cmd : α → Instr} {elem : α → Fe}
    (hcmd : ∀ (a : α) (s : State), s.glen ≠ 0#5 → exec (cmd a) s = .next (s.feed (elem a)).complete)
    (len : Nat) (xs : List α) : Feeds len (xs.map cmd) (xs.map elem) :=
  fun _ hg _ => runInstrs_map_feeding hcmd xs hg

theorem feeds_pstep (len : Nat) (v : Fe) : Feeds len [.pstep (.imm v)] [v] :=
  feeds_map exec_pstep_imm len [v]

theorem State.feed_complete (s : State) (v : Fe) : s.complete.feed v = (s.feed v).complete := by
  simp only [State.feed, State.complete]

/-- Completion commutes with the steps, which do not read `STATUS`. -/
theorem State.feedAll_complete (s : State) (vs : List Fe) :
    s.complete.feedAll vs = (s.feedAll vs).complete := by
  induction vs generalizing s with
  | nil => rfl
  | cons v vs ih => rw [feedAll_cons, feed_complete, ih, ← feedAll_cons]

/-- PPAD feeds as many zeros as the generator has coefficients (R72). -/
theorem feeds_ppad (len : Nat) : Feeds len [.ppad] (List.replicate len 0#5) := by
  rintro s hg rfl
  have hppad := exec_ppad (s := s.complete) hg
  rw [State.feedAll_complete, State.complete_complete, State.complete_glen] at hppad
  exact runInstrs_cons_of_exec hppad []

/-- The feeding commands of R81 feed the expansion of R76, part by part. -/
theorem feeds_hrpExpand (len : Nat) (h : List Byte) : Feeds len (hrpFeedCommands h) (hrpExpand h len) :=
  ((((feeds_pstep len 1#5).append
    (feeds_map (fun _ _ hg => exec_of_effect (.hhi hg)) len h)).append
    (feeds_pstep len 0#5)).append
    (feeds_map (fun _ _ hg => exec_of_effect (.hlo hg)) len h)).append (feeds_ppad len)

/-! ### The HRP command sequence (R81) -/

/-- `HRPRES` loads the generator and feeds the expansion (R45). -/
theorem runInstrs_pseudoHrpres {choice : GenChoice}
    (hc : ∀ g, choice = .custom g → 1 ≤ g.length ∧ g.length ≤ 16) (h : List Byte) (s : State) :
    runInstrs (pseudoHrpres choice h) s =
      .next ((s.withGenerator choice).feedAll (hrpExpand h (generatorOf choice).length)).complete := by
  rw [pseudoHrpres, runInstrs_append (runInstrs_loadCommands hc s)]
  exact feeds_hrpExpand _ h _ (glen_withGenerator_ne_zero hc s) (toNat_glen_withGenerator hc s)

/-- PCLR and the feeding commands feed the expansion into the cleared register of a loaded generator. -/
theorem runInstrs_pclr_hrpFeedCommands (h : List Byte) {s : State} (hg : s.glen ≠ 0#5) :
    runInstrs (.pclr :: hrpFeedCommands h) s =
      .next (s.clearAcc.feedAll (hrpExpand h s.glen.toNat)).complete := by
  rw [runInstrs_cons_of_exec (exec_of_effect .pclr)]
  exact feeds_hrpExpand _ h s.clearAcc hg rfl

theorem State.accSeq_complete (s : State) : s.complete.accSeq = s.accSeq := rfl

/-- Fed a sequence after a clear, the register holds `polymod` of it (R68). -/
theorem accSeq_feedAll_clearAcc {s : State} (hs : GlenLegal s) (vs : List Fe) :
    (s.clearAcc.feedAll vs).accSeq = polymod vs s.genSeq := by
  have hzeros : s.clearAcc.accSeq = List.replicate s.genSeq.length 0#5 := by
    rw [length_genSeq s hs]
    exact take_zeroFile _ hs
  rw [accSeq_feedAll s.clearAcc vs hs, hzeros]
  rfl

/-- Completed with `polymod` of the expansion in the register, the unit gives the residue by `NLEN` and PRD
(R23, R73, R77). -/
theorem complete_gives_hrpResidue {t : State} {h : List Byte} {g : List Fe} (ht : GlenLegal t)
    (hacc : t.accSeq = polymod (hrpExpand h g.length) g) :
    t.complete.residue = hrpResidue h g ∧ t.complete.nlen = (hrpResidue h g).length ∧
      ∀ idx : BitVec 4, ∃ u, exec (.prd false idx) t.complete = .next u ∧
        u.res = ((hrpResidue h g).getD idx.toNat 0#5).setWidth 8 := by
  have hres : t.complete.residue = hrpResidue h g := by
    rw [State.residue, State.accSeq_complete, hacc, hrpResidue]
  have hread := normElem_eq_getD_residue t.complete ht
  rw [← length_residue t.complete ht, hres]
  rw [hres] at hread
  exact ⟨rfl, rfl, fun idx => ⟨_, exec_prd idx _, by simp [hread]⟩⟩

theorem length_hrpFeedCommands (h : List Byte) : (hrpFeedCommands h).length = 2 * h.length + 3 := by
  simp only [hrpFeedCommands, List.length_append, List.length_map, List.length_singleton]
  omega

/-- Settles O57: either sequence feeds the expansion into a cleared register, and PRD reads the normal form of
what that leaves. -/
theorem hrpCommandsComputeHrpResidue : Obligations.HrpCommandsComputeHrpResidue := by
  refine ⟨fun choice h s hc => ?_, fun h s hg hs => ?_, fun h => ?_⟩
  · have hacc := accSeq_feedAll_withGenerator hc s (hrpExpand h (generatorOf choice).length)
    obtain ⟨-, hnlen, hprd⟩ :=
      complete_gives_hrpResidue (by simpa using glenLegal_withGenerator hc s) hacc
    exact ⟨_, runInstrs_pseudoHrpres hc h s, (State.accSeq_complete _).trans hacc, hnlen, hprd,
      by simp [State.withGenerator], by simp [Completes, State.withGenerator]⟩
  · have hacc := accSeq_feedAll_clearAcc hs (hrpExpand h s.glen.toNat)
    have hrun := runInstrs_pclr_hrpFeedCommands h hg
    rw [← length_genSeq s hs] at hacc hrun ⊢
    obtain ⟨hres, hnlen, hprd⟩ := complete_gives_hrpResidue (by simpa using hs) hacc
    exact ⟨_, hrun, (State.accSeq_complete _).trans hacc, hres, hnlen, hprd, by simp, by simp [Completes]⟩
  · have hfeed := length_hrpFeedCommands h
    simp [pseudoHrpres, loadCommands, hfeed]

/-! ### The corners of the residue (R76, R82) -/

theorem length_hrpExpand (h : List Byte) (len : Nat) : (hrpExpand h len).length = 2 * h.length + 2 + len := by
  simp only [hrpExpand, List.length_append, List.length_map, List.length_replicate, List.length_singleton]
  omega

theorem length_polyNormalize_le (p : List Fe) : (polyNormalize p).length ≤ p.length := by
  have := leadingZeros_add_length_polyNormalize p
  omega

/-- The normal form is empty exactly for zeros (R69). -/
theorem polyNormalize_eq_nil_iff (p : List Fe) : polyNormalize p = [] ↔ p = List.replicate p.length 0#5 := by
  have hnil : polyNormalize (List.replicate p.length 0#5) = [] := by
    rw [← List.append_nil (List.replicate _ _), polyNormalize_zeros_append, polyNormalize]
  rw [← polyNormalize_inj (List.length_replicate (n := p.length)).symm, hnil]

/-- The expansion ends in its zeros (R76). -/
theorem hrpExpand_eq_append_zeros (h : List Byte) (len : Nat) :
    hrpExpand h len = hrpExpand h 0 ++ List.replicate len 0#5 := by
  simp [hrpExpand]

/-- For a nonzero constant term, zeros after an input leave zeros in the register exactly when the input
does: a zero step takes only zeros to zeros (R75). -/
theorem polymod_append_zeros_eq_zeros_iff {front : List Fe} {k : Fe} (hk : k ≠ 0#5) (s : List Fe) (n : Nat) :
    polymod (s ++ List.replicate n 0#5) (front ++ [k]) = List.replicate (front ++ [k]).length 0#5 ↔
      polymod s (front ++ [k]) = List.replicate (front ++ [k]).length 0#5 := by
  have hzeros := polymod_zeros n (front ++ [k])
  rw [polymod_append]
  constructor
  · intro hfed
    exact eq_of_foldl_polyStep_eq (length_polymod s _) List.length_replicate hk (hfed.trans hzeros.symm)
  · intro hs
    rw [hs]
    exact hzeros

/-- Settles O58: the zeros of the expansion lose nothing of a register that is not zero. -/
theorem hrpResidueCorners : Obligations.HrpResidueCorners := by
  refine ⟨length_hrpExpand, fun h g => ?_, fun h front k hk => ?_, by decide⟩
  · calc (hrpResidue h g).length
      _ ≤ (polymod (hrpExpand h g.length) g).length := length_polyNormalize_le _
      _ = g.length := length_polymod _ g
  · rw [hrpResidue, polyNormalize_eq_nil_iff, polyNormalize_eq_nil_iff, length_polymod, length_polymod,
      hrpExpand_eq_append_zeros, polymod_append_zeros_eq_zeros_iff hk]

end Sys2Proof.Machine
end

section
/-!
PROOF. The control commands (spec/45_control.md R83, R84): NOP and SCLR as words, and what each writes and
leaves unchanged.
-/

namespace Sys2Proof.Machine

/-- Both commands are words of format N0, whose reserved bits are 11:1 (R41). -/
theorem illegalCommand_of_reserved_n0 (w : Word) (hop : w.extractLsb' 12 4 = 0x0#4)
    (hr : w &&& 0x0FFE#16 ≠ 0#16) : IllegalCommand w :=
  reservedBitsRaiseIllegalCmd w (0x0#4, 0x0FFE#16) (by simp) hop hr

/-- Completion keeps what a completed command has to keep (R88). -/
theorem completes_complete (s : State) : Completes s s.complete := by
  simp [Completes]

/-- Settles O41: NOP is the completion alone, so nothing but ERR and CODE can change. -/
theorem nopOnlyCompletes : Obligations.NopOnlyCompletes :=
  ⟨decode_encode (c := .nop) rfl, illegalCommand_of_reserved_n0,
    fun s => ⟨_, exec_of_effect .nop, rfl, completes_complete s, rfl, rfl, rfl⟩⟩

/-- Settles O42: the completion clears ERR and CODE, and keeps STK as SCLR has just cleared it. -/
theorem sclrClearsSticky : Obligations.SclrClearsSticky := by
  refine ⟨decode_encode (c := .sclr) rfl, illegalCommand_of_reserved_n0, fun s =>
    ⟨_, exec_of_effect .sclr, statusErr_statusCompleted _, statusCode_statusCompleted _, ?stk, ?reserved,
      rfl, rfl, ⟨rfl, rfl, rfl⟩, rfl⟩⟩
  case stk => exact (statusStk_statusCompleted _).trans (statusStk_statusUnstuck s.status)
  case reserved => exact (statusReserved_statusCompleted _).trans (statusReserved_statusUnstuck s.status)

end Sys2Proof.Machine
end

section
/-!
PROOF. Errors and completion (spec/60_exceptions.md R86 to R89): for each error the words that raise it, so that
the code a word leaves in `STATUS` names its cause; and what an error and a completion keep.
-/

namespace Sys2Proof.Machine

/-! ### The cause of each error (R86) -/

/-- The cause of each error, for a word: the row of R86. -/
def WordCause (w : Word) (s : State) : UnitError → Prop
  | .invalidChar b => decode w = .ok (.c2fe b) ∧ b ∉ unitParams.alphabet.toList
  | .invZero => ∃ src, decode w = .ok (.finv src) ∧ operandA src s = 0#5
  | .illegalCmd => ∀ c, decode w ≠ .ok c
  | .badLen => ∃ len, decode w = .ok (.gset len) ∧ (len.toNat = 0 ∨ 16 < len.toNat)
  | .noGen => s.glen = 0#5 ∧ ∃ c, decode w = .ok c ∧ c.mnemonic ∈ ["PSTEP", "HHI", "HLO", "PPAD"]

/-- What a decoded command fails for is its word's cause: the selectors GSEL refuses never decode (R42, R89). -/
theorem wordCause_of_errorCause {w : Word} {c : Instr} {s : State} {e : UnitError} (hd : decode w = .ok c)
    (h : ErrorCause c s e) : WordCause w s e := by
  cases h with
  | invalidChar hb => exact ⟨hd, (elemOf_eq_none_iff _ _).mp hb⟩
  | invZero h0 => exact ⟨_, hd, h0⟩
  | badSelector hsel =>
    have hlt := of_decide_eq_true (encodeOfDecode w _ hd).1
    exact absurd hlt (Nat.not_lt.mpr hsel)
  | badLen hl => exact ⟨_, hd, hl⟩
  | noGen hg hc => exact ⟨hg, _, hd, hc⟩

/-- A word with an error's cause records that error. -/
theorem execWord_of_wordCause {w : Word} {s : State} {e : UnitError} (h : WordCause w s e) :
    execWord w s = .next (s.raiseError e) := by
  cases e with
  | invalidChar b =>
    obtain ⟨hd, hb⟩ := h
    exact (execWord_of_decode hd s).trans (exec_c2fe_of_notMem hb s)
  | invZero =>
    obtain ⟨src, hd, h0⟩ := h
    exact (execWord_of_decode hd s).trans (exec_of_errorCause (.invZero h0))
  | illegalCmd => exact execWord_of_not_command h s
  | badLen =>
    obtain ⟨len, hd, hl⟩ := h
    exact (execWord_of_decode hd s).trans (exec_of_errorCause (.badLen hl))
  | noGen =>
    obtain ⟨hg, c, hd, hc⟩ := h
    exact (execWord_of_decode hd s).trans (exec_eq_noGen hc hg)

/-- A word completes, or it has an error's cause and records that error (R87, R88). -/
theorem execWord_completes_or_raises {w : Word} {s t : State} (h : execWord w s = .next t) :
    (statusErr t.status = false ∧ statusCode t.status = 0#3) ∨
      ∃ e, WordCause w s e ∧ t = s.raiseError e := by
  rcases execWord_effect h with ⟨c, hd, hc⟩ | ⟨hd, ht⟩
  · rcases hc.status_cases with hs | ⟨-, hs⟩ | ⟨e, he, ht⟩
    · left; simp [hs]
    · left; simp [hs]
    · exact .inr ⟨e, wordCause_of_errorCause hd he, ht⟩
  · exact .inr ⟨.illegalCmd, hd, ht⟩

/-! ### The code and its cause -/

/-- No error has the code of success (R86). -/
theorem errorCode_ne_zero (e : UnitError) : errorCode e ≠ 0#3 := by
  cases e <;> simp [errorCode]

/-- The error that a nonzero code and the byte in `ECHR` record (R86). -/
def errorOfCode (code : BitVec 3) (echr : Byte) : UnitError :=
  if code = 1#3 then .invalidChar echr
  else if code = 2#3 then .invZero
  else if code = 3#3 then .illegalCmd
  else if code = 4#3 then .badLen
  else .noGen

/-- An error is read back from what it records. -/
theorem errorOfCode_errorCode (e : UnitError) (old : Byte) :
    errorOfCode (errorCode e) (echrAfter e old) = e := by
  cases e <;> rfl

/-- The code is 0 exactly after a word that completed (R16, R86). -/
theorem statusCode_eq_zero_iff {w : Word} {s t : State} (h : execWord w s = .next t) :
    statusCode t.status = 0#3 ↔ statusErr t.status = false := by
  rcases execWord_completes_or_raises h with ⟨herr, hcode⟩ | ⟨e, -, rfl⟩
  · simp [herr, hcode]
  · simp [errorCode_ne_zero]

/-- A nonzero code names an error whose cause the word had. -/
theorem wordCause_of_statusCode {w : Word} {s t : State} {code : BitVec 3} (h : execWord w s = .next t)
    (hcode : statusCode t.status = code) (h0 : code ≠ 0#3) : WordCause w s (errorOfCode code t.echr) := by
  subst hcode
  rcases execWord_completes_or_raises h with ⟨-, hzero⟩ | ⟨e, he, rfl⟩
  · exact absurd hzero h0
  · rwa [State.raiseError_status, statusCode_statusRaised, State.raiseError_echr, errorOfCode_errorCode]

/-- A word with an error's cause leaves the error's code. -/
theorem statusCode_of_wordCause {w : Word} {s t : State} {e : UnitError} (h : execWord w s = .next t)
    (he : WordCause w s e) : statusCode t.status = errorCode e := by
  rw [execWord_of_wordCause he] at h
  cases h
  simp

/-- The codes left are those of R86. -/
theorem toNat_statusCode_le_five {w : Word} {s t : State} (h : execWord w s = .next t) :
    (statusCode t.status).toNat ≤ 5 := by
  rcases execWord_completes_or_raises h with ⟨-, hcode⟩ | ⟨e, -, rfl⟩
  · simp [hcode]
  · simpa using (errorCode_range e).2

/-- Settles O43: each code is read back to its error, whose cause the word had, and each cause leaves its
error's code. -/
theorem errorCodeNamesItsCause : Obligations.ErrorCodeNamesItsCause := by
  intro w s t h
  refine ⟨statusCode_eq_zero_iff h, ⟨fun h1 => ⟨t.echr, ?cause⟩, fun ⟨b, hb⟩ => ?code⟩,
    fun b hd h1 => ?echr,
    ⟨fun h2 => wordCause_of_statusCode h h2 (by decide), statusCode_of_wordCause (e := .invZero) h⟩,
    ⟨fun h3 => wordCause_of_statusCode h h3 (by decide), statusCode_of_wordCause (e := .illegalCmd) h⟩,
    ⟨fun h4 => wordCause_of_statusCode h h4 (by decide), statusCode_of_wordCause (e := .badLen) h⟩,
    ⟨fun h5 => wordCause_of_statusCode h h5 (by decide), statusCode_of_wordCause (e := .noGen) h⟩,
    toNat_statusCode_le_five h⟩
  case cause => exact wordCause_of_statusCode h h1 (by decide)
  case code => exact statusCode_of_wordCause (e := .invalidChar b) h hb
  case echr =>
    obtain ⟨hd', -⟩ : WordCause w s (.invalidChar t.echr) := wordCause_of_statusCode h h1 (by decide)
    exact Instr.c2fe.inj (Except.ok.inj (hd'.symm.trans hd))

/-! ### What an error and a completion keep (R87, R88) -/

/-- A word that does not leave INVALID_CHAR keeps `ECHR` (R17). -/
theorem echr_of_statusCode_ne_one {w : Word} {s t : State} (h : execWord w s = .next t)
    (hcode : statusCode t.status ≠ 1#3) : t.echr = s.echr := by
  by_contra hne
  exact hcode (echrWriters.1 w s t h hne).1

/-- Settles O44: a word that leaves ERR = 1 is an error's record and nothing else. -/
theorem errorsHaveNoPartialEffect : Obligations.ErrorsHaveNoPartialEffect := by
  intro w s t h herr
  refine ⟨?_, echr_of_statusCode_ne_one h⟩
  obtain ⟨e, rfl⟩ := execWord_eq_raiseError h herr
  rw [State.raiseError_status, statusCode_statusRaised]
  exact recordsError_raiseError s e

/-- SCLR's word clears STK (R84). -/
theorem statusStk_of_sclr_word {s t : State} (h : execWord 0x0001#16 s = .next t) :
    statusStk t.status = false := by
  have hd : decode 0x0001#16 = .ok .sclr := decode_encode (c := .sclr) rfl
  rw [execWord_of_decode hd, exec_of_effect .sclr] at h
  cases h
  simp

/-- Every other word that completes keeps STK (R88). -/
theorem statusStk_of_completed {w : Word} {s t : State} (h : execWord w s = .next t)
    (herr : statusErr t.status = false) (hw : w ≠ 0x0001#16) :
    statusStk t.status = statusStk s.status := by
  rcases execWord_effect h with ⟨c, hd, hc⟩ | ⟨-, rfl⟩
  · rcases hc.status_cases with hs | ⟨rfl, -⟩ | ⟨e, -, rfl⟩
    · simp [hs]
    · exact absurd (eq_one_of_decode_sclr hd) hw
    · simp at herr
  · simp at herr

/-- Settles O45: ERR = 0 gives CODE 0, which is not INVALID_CHAR's, and only SCLR's word clears STK. -/
theorem successKeepsStickyAndEchr : Obligations.SuccessKeepsStickyAndEchr := by
  intro w s t h herr
  have hcode : statusCode t.status = 0#3 := (statusCode_eq_zero_iff h).mpr herr
  refine ⟨hcode, echr_of_statusCode_ne_one h (by simp [hcode]), ?_⟩
  by_cases hw : w = 0x0001#16
  · subst hw
    simp [statusStk_of_sclr_word h]
  · simp [statusStk_of_completed h herr hw, hw]

end Sys2Proof.Machine
end

section
/-!
PROOF. The state after reset (spec/70_reset_and_hazards.md R94), and the host's reset, which enters it from every
state (R100).
-/

namespace Sys2Proof.Machine

/-- Both register files are all 0 after reset. -/
theorem fileGet_reset (k : Nat) : fileGet State.reset.gen k = 0#5 ∧ fileGet State.reset.acc k = 0#5 :=
  ⟨fileGet_zeroFile k, fileGet_zeroFile k⟩

/-- `NLEN` is at most `GLEN`, so it is 0 without a generator (R18, R23). -/
theorem nlen_of_glen_zero {s : State} (hg : s.glen = 0#5) : s.nlen = 0 := by
  have hle := nlen_le_glen s
  rw [hg] at hle
  exact Nat.le_zero.mp hle

/-- The host's reset takes one step, whatever the registers hold (R100). -/
theorem step_of_reset {s : State} {rest : List HostAction} (hp : s.port = .reset :: rest) :
    step s = .next { State.reset with port := rest } :=
  step_of_action hp

/-- Settles O1: the registers and files are 0 as R94 lists them, so `STATUS` has no bit set, and `NLEN` is
bounded by `GLEN`. -/
theorem resetZeroesEveryRegister : Obligations.ResetZeroesEveryRegister :=
  ⟨rfl, by decide, by decide, by decide, by decide, rfl, rfl, fun k _ => fileGet_reset k, nlen_of_glen_zero rfl⟩

/-- Settles O2: the host's reset answers the state after reset, with the later actions still to come. -/
theorem hostResetEntersResetState : Obligations.HostResetEntersResetState := by
  intro s rest hp
  exact ⟨{ State.reset with port := rest }, step_of_reset hp, rfl, rfl, rfl, rfl,
    fun k _ => fileGet_reset k, nlen_of_glen_zero rfl, rfl⟩

end Sys2Proof.Machine
end

section
/-!
PROOF. The letters of the unit's alphabet (spec/41_char_conv.md R55, spec/90_conflicts.md C1): with the four
excluded characters, its codes are the upper-case letters and the digits, each once.
-/

namespace Sys2Proof.Machine

/-- The ASCII codes of the digits, then of the upper-case letters. -/
def alphanumericCodes : List Byte := (List.range' 48 10 ++ List.range' 65 26).map (BitVec.ofNat 8)

/-- The ASCII codes of `1`, `B`, `I` and `O`, which the alphabet leaves out. -/
def excludedCodes : List Byte := [0x31#8, 0x42#8, 0x49#8, 0x4F#8]

/-- A byte in one of the two ASCII ranges is a digit's or an upper-case letter's code. -/
theorem mem_alphanumericCodes {b : Byte} (h : 48 ≤ b.toNat ∧ b.toNat ≤ 57 ∨ 65 ≤ b.toNat ∧ b.toNat ≤ 90) :
    b ∈ alphanumericCodes := by
  refine List.mem_map.mpr ⟨b.toNat, ?_, by simp⟩
  simp only [List.mem_append, List.mem_range'_1]
  omega

/-- The alphabet and the excluded codes make up the letters and digits: 36 codes, each once. -/
theorem alphabet_append_excludedCodes_perm :
    (unitParams.alphabet.toList ++ excludedCodes).Perm alphanumericCodes := by decide

theorem nodup_alphanumericCodes : alphanumericCodes.Nodup := by decide

/-- A letter or digit is outside the alphabet exactly when it is one of the excluded four. -/
theorem notMem_alphabet_iff {b : Byte} (h : b ∈ alphanumericCodes) :
    b ∉ unitParams.alphabet.toList ↔ b ∈ excludedCodes := by
  have hcover : b ∈ unitParams.alphabet.toList ∨ b ∈ excludedCodes :=
    List.mem_append.mp (alphabet_append_excludedCodes_perm.mem_iff.mpr h)
  have hdisj : unitParams.alphabet.toList.Disjoint excludedCodes :=
    List.disjoint_of_nodup_append (alphabet_append_excludedCodes_perm.nodup_iff.mpr nodup_alphanumericCodes)
  exact ⟨hcover.resolve_left, fun hex hal => hdisj hal hex⟩

/-- Settles O26: the string is read off the table, and a letter or digit has no value exactly when it is
outside the table, so when it is an excluded one. -/
theorem unitAlphabetIsCorrectedString : Obligations.UnitAlphabetIsCorrectedString := by
  refine ⟨by decide, fun b hb => ?_⟩
  exact (elemOf_eq_none_iff _ b).trans (notMem_alphabet_iff (mem_alphanumericCodes hb))

end Sys2Proof.Machine
end
